-- ==== Sys2Proof/Word.lean ====
section
/-! DEFINITION. The machine word and the numbers that name registers (spec/00_scope.md R4, R5; spec/10_state.md R20). -/

namespace Sys2Proof

/-- A 32-bit value: register contents, program counter, memory word, instruction word (R4, R60). -/
abbrev Word := BitVec 32

/-- A register number, 0 to 15. A register field has four bits, so every field value names a register (R20). -/
abbrev RegNum := Fin 16

/-- The 20-bit field `insn[19:0]` of ADDI, LW, SW, GOTO and LEA, as it stands in the word (R70). -/
abbrev Imm20 := BitVec 20

end Sys2Proof
end

