-- ==== Sys2Proof/Config.lean ====
section
/-! DEFINITION. The parameters that the spec leaves open by name (spec/00_scope.md section 3,
spec/92_eei_decisions.md D7, D8, D10, D11) and the values this model gives where the spec gives none. -/

namespace Sys2Proof.Config

/-- Parameter `skp_reserved_mode` (D10): what a SKP word with mode 2 to 15 is. -/
inductive SkpReservedMode where
  /-- the word is refused (the spec's default) -/
  | refuse
  /-- the literal reading of the Operation block: no skip, a NOOP -/
  | noSkip
deriving DecidableEq, Repr

/-- Parameter `goto_fixed_field` (D8): what a GOTO word with `insn[27:24]` not 0000 is. -/
inductive GotoFixedField where
  /-- the word is refused (the spec's default) -/
  | refuse
  /-- the field is ignored: the word is a GOTO -/
  | ignore
deriving DecidableEq, Repr

/-- The unused-bits parameter (D7): what a word with a nonzero bit in an "unused" field is. -/
inductive UnusedBits where
  /-- the bits are ignored (the spec's default, R68) -/
  | ignore
  /-- the strict alternative: the word is refused -/
  | refuse
deriving DecidableEq, Repr

/-- Parameter `jalr_alias` (D11): JALR whose AT and RA fields name the same register, not register 0. -/
inductive JalrAlias where
  /-- Appendix A's order: RA is written first, then AT is read (the spec's default) -/
  | sequential
  /-- the instruction is refused -/
  | refuse
deriving DecidableEq, Repr

/-- The four named parameters of spec/92_eei_decisions.md together. -/
structure Options where
  skpReservedMode : SkpReservedMode
  gotoFixedField  : GotoFixedField
  unusedBits      : UnusedBits
  jalrAlias       : JalrAlias
deriving DecidableEq, Repr

/-- The setting this model runs with: the spec's default of every parameter (log entries 7, 8, 9, 10). -/
def options : Options :=
  { skpReservedMode := .refuse, gotoFixedField := .refuse, unusedBits := .ignore, jalrAlias := .sequential }

/-- The number of words in each memory, 2^24 (R4, R30). -/
abbrev memWords : Nat := 2 ^ 24

/-- What a memory word that nothing has listed reads as. The spec leaves it open (D5, U7).
DESIGN CHOICE, log entry 2, unsafe. -/
abbrev unlistedWord : Word := 0#32

/-- The program counter after reset (R33, D3). -/
abbrev resetPc : Word := 0#32

/-- What `x[1]` to `x[15]` hold at `State.reset`. The spec leaves it open (D4, U6).
DESIGN CHOICE, log entry 3, unsafe. -/
abbrev resetReg : Word := 0#32

end Sys2Proof.Config
end

