-- ==== Sys2Proof/Syntax.lean ====
section
/-! DEFINITION. The instructions: one constructor per row of spec/opcode_table.json (spec/00_scope.md R2,
spec/30_encoding.md R61 to R66). Unused fields carry nothing (R68). -/

namespace Sys2Proof

/-- The eleven instructions, SKP as its two modes. Operands stand in the order of the assembler line (R71). -/
inductive Instr where
  /-- `ADD DR, SR1, SR2` (R80) -/
  | add (dr sr1 sr2 : RegNum)
  /-- `ADDI DR, SR1, immval20` (R81) -/
  | addi (dr sr1 : RegNum) (imm : Imm20)
  /-- `NAND DR, SR1, SR2` (R82) -/
  | nand (dr sr1 sr2 : RegNum)
  /-- `SKPE SR1, SR2`, SKP with mode 0 (R90) -/
  | skpe (sr1 sr2 : RegNum)
  /-- `SKPGT SR1, SR2`, SKP with mode 1 (R91) -/
  | skpgt (sr1 sr2 : RegNum)
  /-- `GOTO LABEL`, the label as its PCoffset20 field (R92) -/
  | goto (off : Imm20)
  /-- `LEA DR, label`, the label as its PCoffset20 field (R100) -/
  | lea (dr : RegNum) (off : Imm20)
  /-- `LW DR, offset20(BaseR)` (R101) -/
  | lw (dr base : RegNum) (off : Imm20)
  /-- `SW SR, offset20(BaseR)` (R102) -/
  | sw (sr base : RegNum) (off : Imm20)
  /-- `JALR AT, RA`: target register, then link register (R110) -/
  | jalr (tgt link : RegNum)
  /-- `HALT` (R111) -/
  | halt
deriving DecidableEq, Repr

end Sys2Proof
end

