-- ==== Sys2Proof/WellFormed.lean ====
section
/-! DEFINITION. Well-formedness of operands: register numbers (spec/10_state.md R20) and immediates
(spec/30_encoding.md R70, R74). The types of Instr's fields already keep both ranges; the checks are stated on raw
numbers, where an assembler line can break them, and Instr.wellFormed applies them to every operand. -/

namespace Sys2Proof

/-- A number that names a register: 0 to 15 (R20). -/
def regNumberOk (n : Nat) : Bool := decide (n < 16)

/-- A number that fits a signed 20-bit field: -524288 to 524287 (R70, R74). -/
def immediateOk (z : Int) : Bool := decide (-524288 ≤ z ∧ z ≤ 524287)

/-- Every operand of the instruction has a value its field can hold. -/
def Instr.wellFormed : Instr → Bool
  | .add dr sr1 sr2   => regNumberOk dr && regNumberOk sr1 && regNumberOk sr2
  | .addi dr sr1 imm  => regNumberOk dr && regNumberOk sr1 && immediateOk imm.toInt
  | .nand dr sr1 sr2  => regNumberOk dr && regNumberOk sr1 && regNumberOk sr2
  | .skpe sr1 sr2     => regNumberOk sr1 && regNumberOk sr2
  | .skpgt sr1 sr2    => regNumberOk sr1 && regNumberOk sr2
  | .goto off         => immediateOk off.toInt
  | .lea dr off       => regNumberOk dr && immediateOk off.toInt
  | .lw dr base off   => regNumberOk dr && regNumberOk base && immediateOk off.toInt
  | .sw sr base off   => regNumberOk sr && regNumberOk base && immediateOk off.toInt
  | .jalr tgt link    => regNumberOk tgt && regNumberOk link
  | .halt             => true

end Sys2Proof
end

