-- ==== Sys2Proof/Decode.lean ====
section
/-! DEFINITION. Decoding and encoding (spec/30_encoding.md R60 to R70, R75), the opcode table, and the table's word
numbering. A word is decoded whole: the spec gives bytes no order (spec/20_memory.md R44). -/

namespace Sys2Proof

/-- Why a word is no instruction of this machine. Each reason carries the word (spec/60_exceptions.md R121). -/
inductive Reject where
  /-- opcode 6, 7, 10, 11, 13 or 14 (R67, D9) -/
  | illegalInstruction (insn : Word)
  /-- opcode 3 with mode 2 to 15 (R69 a, D10) -/
  | reservedSkpMode (insn : Word)
  /-- opcode 4 with `insn[27:24]` not 0 (R69 b, D8) -/
  | reservedGotoField (insn : Word)
  /-- a nonzero unused bit, under the strict setting of D7 only (R68) -/
  | nonzeroUnusedBits (insn : Word)
  /-- opcode 12 with `insn[27:24] = insn[23:20]`, not 0, under `jalr_alias = refuse` only (R112, R121 d, D11) -/
  | jalrAlias (insn : Word)
deriving DecidableEq, Repr

/-- `insn[31:28]` (R61). -/
def opcodeField (w : Word) : BitVec 4 := w.extractLsb' 28 4

/-- `insn[27:24]`: SKP's mode and GOTO's fixed field (R64, R65). -/
def modeField (w : Word) : BitVec 4 := w.extractLsb' 24 4

/-- The register number in `insn[27:24]` (R62, R63, R65, R66). -/
def regField27 (w : Word) : RegNum := (w.extractLsb' 24 4).toFin

/-- The register number in `insn[23:20]` (R62 to R64, R66). -/
def regField23 (w : Word) : RegNum := (w.extractLsb' 20 4).toFin

/-- The register number in `insn[3:0]` (R62, R64). -/
def regField3 (w : Word) : RegNum := (w.extractLsb' 0 4).toFin

/-- `insn[19:0]` (R70). -/
def immField (w : Word) : Imm20 := w.extractLsb' 0 20

/-- The unused bits of formats R and S, `insn[19:4]` (R68). -/
def unusedRS : Word := 0x000FFFF0#32
/-- The unused bits of format P, `insn[23:20]` (R68). -/
def unusedP : Word := 0x00F00000#32
/-- The unused bits of format J, `insn[19:0]` (R68). -/
def unusedJ : Word := 0x000FFFFF#32
/-- The unused bits of format H, `insn[27:0]` (R68). -/
def unusedH : Word := 0x0FFFFFFF#32

/-- The instruction, unless the strict setting of D7 refuses the word for a nonzero unused bit. -/
def acceptUnused (o : Config.Options) (w unused : Word) (i : Instr) : Except Reject Instr :=
  match o.unusedBits with
  | .ignore => .ok i
  | .refuse => if w &&& unused = 0#32 then .ok i else .error (.nonzeroUnusedBits w)

/-- Opcode 3: the mode selects SKPE or SKPGT, any other mode is reserved (R64, R69 a). -/
def decodeSkp (o : Config.Options) (w : Word) : Except Reject Instr :=
  match (modeField w).toNat with
  | 0 => acceptUnused o w unusedRS (.skpe (regField23 w) (regField3 w))
  | 1 => acceptUnused o w unusedRS (.skpgt (regField23 w) (regField3 w))
  | _ =>
    match o.skpReservedMode with
    | .refuse => .error (.reservedSkpMode w)
    | .noSkip => acceptUnused o w unusedRS (.add 0 0 0)

/-- Opcode 4: `insn[27:24]` is the constant 0000, any other value is reserved (R65, R69 b). -/
def decodeGoto (o : Config.Options) (w : Word) : Except Reject Instr :=
  match o.gotoFixedField, (modeField w).toNat with
  | _, 0       => acceptUnused o w unusedP (.goto (immField w))
  | .ignore, _ => acceptUnused o w unusedP (.goto (immField w))
  | .refuse, _ => .error (.reservedGotoField w)

/-- A JALR word that names one register, not register 0, as AT and as RA (R112). -/
def jalrAliased (w : Word) : Bool := decide (regField27 w = regField23 w) && decide (regField27 w ≠ 0)

/-- Opcode 12: under `jalr_alias = refuse` the words of `jalrAliased` are refused (R112, R121 d, D11). Which refusal such
a word gets when the strict setting of D7 refuses it too is open: the alias is named first (DESIGN CHOICE, log
entry 10). -/
def decodeJalr (o : Config.Options) (w : Word) : Except Reject Instr :=
  match o.jalrAlias with
  | .sequential => acceptUnused o w unusedJ (.jalr (regField27 w) (regField23 w))
  | .refuse     =>
    if jalrAliased w then .error (.jalrAlias w) else acceptUnused o w unusedJ (.jalr (regField27 w) (regField23 w))

/-- Decoding under given parameters, total on words, opcode first (R75). -/
def decodeWith (o : Config.Options) (w : Word) : Except Reject Instr :=
  match (opcodeField w).toNat with
  | 0  => acceptUnused o w unusedRS (.add (regField27 w) (regField23 w) (regField3 w))
  | 1  => .ok (.addi (regField27 w) (regField23 w) (immField w))
  | 2  => acceptUnused o w unusedRS (.nand (regField27 w) (regField23 w) (regField3 w))
  | 3  => decodeSkp o w
  | 4  => decodeGoto o w
  | 5  => acceptUnused o w unusedP (.lea (regField27 w) (immField w))
  | 8  => .ok (.lw (regField27 w) (regField23 w) (immField w))
  | 9  => .ok (.sw (regField27 w) (regField23 w) (immField w))
  | 12 => decodeJalr o w
  | 15 => acceptUnused o w unusedH .halt
  | _  => .error (.illegalInstruction w)

/-- Decoding under the parameters this model runs with. -/
def decode (w : Word) : Except Reject Instr := decodeWith Config.options w

/-- A register number as a 4-bit field. -/
def regBits (r : RegNum) : BitVec 4 := BitVec.ofFin r

/-- The word with the given fields: `insn[31:28]`, `insn[27:24]`, `insn[23:20]` and `insn[19:0]`, which every format
of R62 to R66 is made of. -/
def packWord (op f27 f23 : BitVec 4) (low : BitVec 20) : Word := op ++ f27 ++ f23 ++ low

/-- `insn[19:0]` of formats R and S: 16 unused bits, then SR2 (R62, R64). -/
def lowReg (r : RegNum) : BitVec 20 := 0#16 ++ regBits r

/-- The instruction's word, with zeros in every unused field (R62 to R66, R68). -/
def encode : Instr → Word
  | .add dr sr1 sr2  => packWord 0b0000#4 (regBits dr) (regBits sr1) (lowReg sr2)
  | .addi dr sr1 imm => packWord 0b0001#4 (regBits dr) (regBits sr1) imm
  | .nand dr sr1 sr2 => packWord 0b0010#4 (regBits dr) (regBits sr1) (lowReg sr2)
  | .skpe sr1 sr2    => packWord 0b0011#4 0b0000#4 (regBits sr1) (lowReg sr2)
  | .skpgt sr1 sr2   => packWord 0b0011#4 0b0001#4 (regBits sr1) (lowReg sr2)
  | .goto off        => packWord 0b0100#4 0b0000#4 0#4 off
  | .lea dr off      => packWord 0b0101#4 (regBits dr) 0#4 off
  | .lw dr base off  => packWord 0b1000#4 (regBits dr) (regBits base) off
  | .sw sr base off  => packWord 0b1001#4 (regBits sr) (regBits base) off
  | .jalr tgt link   => packWord 0b1100#4 (regBits tgt) (regBits link) 0#20
  | .halt            => packWord 0b1111#4 0#4 0#4 0#20

/-- One row of spec/opcode_table.json: a word is this instruction exactly when `w AND mask = pattern`. -/
structure OpcodeRow where
  mnemonic : String
  mask     : Word
  pattern  : Word
  unused   : Word
deriving DecidableEq, Repr

/-- The word is this row's instruction. -/
def OpcodeRow.hits (r : OpcodeRow) (w : Word) : Bool := w &&& r.mask == r.pattern

/-- The row of an instruction, from spec/opcode_table.json. -/
def Instr.row : Instr → OpcodeRow
  | .add _ _ _  => ⟨"ADD",   0xF0000000#32, 0x00000000#32, 0x000FFFF0#32⟩
  | .addi _ _ _ => ⟨"ADDI",  0xF0000000#32, 0x10000000#32, 0x00000000#32⟩
  | .nand _ _ _ => ⟨"NAND",  0xF0000000#32, 0x20000000#32, 0x000FFFF0#32⟩
  | .skpe _ _   => ⟨"SKPE",  0xFF000000#32, 0x30000000#32, 0x000FFFF0#32⟩
  | .skpgt _ _  => ⟨"SKPGT", 0xFF000000#32, 0x31000000#32, 0x000FFFF0#32⟩
  | .goto _     => ⟨"GOTO",  0xFF000000#32, 0x40000000#32, 0x00F00000#32⟩
  | .lea _ _    => ⟨"LEA",   0xF0000000#32, 0x50000000#32, 0x00F00000#32⟩
  | .lw _ _ _   => ⟨"LW",    0xF0000000#32, 0x80000000#32, 0x00000000#32⟩
  | .sw _ _ _   => ⟨"SW",    0xF0000000#32, 0x90000000#32, 0x00000000#32⟩
  | .jalr _ _   => ⟨"JALR",  0xF0000000#32, 0xC0000000#32, 0x000FFFFF#32⟩
  | .halt       => ⟨"HALT",  0xF0000000#32, 0xF0000000#32, 0x0FFFFFFF#32⟩

/-- The opcode table, eleven rows, in the order of spec/opcode_table.json. -/
def opcodeTable : List OpcodeRow :=
  [ (Instr.add 0 0 0).row, (Instr.addi 0 0 0).row, (Instr.nand 0 0 0).row, (Instr.skpe 0 0).row,
    (Instr.skpgt 0 0).row, (Instr.goto 0).row, (Instr.lea 0 0).row, (Instr.lw 0 0 0).row,
    (Instr.sw 0 0 0).row, (Instr.jalr 0 0).row, Instr.halt.row ]

/-- The word that the table's bit numbering `w` stands for: its low `nbits` bits, zeros above. An instruction is one
32-bit word (R60), so no further word follows. -/
def tableWord (nbits w : Nat) : Word := BitVec.ofNat 32 (w % 2 ^ nbits)

/-- The instruction the decoder reads from the table's word, none where it refuses. -/
def decodeTableWord (nbits w : Nat) : Option Instr :=
  match decode (tableWord nbits w) with
  | .ok i    => some i
  | .error _ => none

end Sys2Proof
end

