-- ==== Sys2Proof/Machine/State.lean ====
section
/-! DEFINITION. The machine's state: the architectural state of spec/10_state.md (R20 to R33) and the pipeline's
buffers of spec/70_reset_and_hazards.md R148, R166; the reasons a step stops (spec/60_exceptions.md R121); the state
after reset and at launch (R33, R167). -/

namespace Sys2Proof.Machine

/-- Why the machine stops with a fault. -/
inductive Fault where
  /-- Raised by `step` for the word fetched at `pc`, and by `cycle` for a word that reaches EX, when its opcode is 6,
  7, 10, 11, 13 or 14 (R67, R121 a, D9). Safe: the model stops where the spec gives the hardware no behaviour. -/
  | illegalInstruction (insn : Word)
deriving DecidableEq, Repr

/-- Why the model has no meaning for what it should run. -/
inductive Refusal where
  /-- An instruction whose arm in `exec` has no meaning yet. Safe. No arm of this model raises it. -/
  | notModelled (mnemonic : String)
  /-- Raised by `step`, and by `cycle` in EX, for a SKP word with mode 2 to 15 (R69 a, R121 b, D10). Safe. -/
  | reservedSkpMode (insn : Word)
  /-- Raised by `step`, and by `cycle` in EX, for a GOTO word with `insn[27:24]` not 0 (R69 b, R121 c, D8). Safe. -/
  | reservedGotoField (insn : Word)
  /-- Raised by `step`, and by `cycle` in EX, for a nonzero unused bit, only under the strict setting of D7, which
  this model does not run with. Safe. -/
  | nonzeroUnusedBits (insn : Word)
  /-- Raised by `step`, and by `cycle` in EX, for a JALR word with AT = RA, not register 0, only under
  `jalr_alias = refuse` (R112, R121 d, D11), which this model does not run with. Safe. -/
  | jalrAlias (insn : Word)
deriving DecidableEq, Repr

/-- A memory: (24-bit word address, word) pairs, in the canonical form `Memory.wf` (log entry 1). -/
abbrev Memory := List (Nat × Word)

/-- The sixteen general registers `x[0..15]` (R20). Slot 0 is hard-wired zero (R21). -/
abbrev RegFile := Vector Word 16

/-- What the instruction in a pipeline stage is. The SKP mode is part of it; a word that decodes to no instruction
travels as `reserved` until it reaches EX (R166, note on the reserved encodings). -/
inductive StageOp where
  | add | addi | nand | skpe | skpgt | goto | lea | lw | sw | jalr | halt
  | reserved (r : Reject)
deriving DecidableEq, Repr

/-- Buffer FD, from IF to ID/RR: the fetched word and the incremented pc (R148). -/
structure FetchBuffer where
  insn : Word
  npc  : Word
deriving DecidableEq, Repr

/-- Buffer DE, from ID/RR to EX (R148), with the number of the first source register, which EX needs for JALR with
AT = RA (R166, note on JALR). -/
structure DecodeBuffer where
  op   : StageOp
  srcA : RegNum
  dst  : RegNum
  wr   : Bool
  a    : Word
  b    : Word
  imm  : Word
  npc  : Word
deriving DecidableEq, Repr

/-- Buffer EM, from EX to MEM (R148). -/
structure ExecBuffer where
  op    : StageOp
  dst   : RegNum
  wr    : Bool
  val   : Word
  sdata : Word
deriving DecidableEq, Repr

/-- Buffer MW, from MEM to WB (R148). -/
structure MemBuffer where
  op  : StageOp
  dst : RegNum
  wr  : Bool
  val : Word
deriving DecidableEq, Repr

/-- FD holding a NOOP (R166). -/
def FetchBuffer.noop : FetchBuffer := ⟨0#32, 0#32⟩

/-- DE holding a NOOP (R166). -/
def DecodeBuffer.noop : DecodeBuffer := ⟨.add, 0, 0, false, 0#32, 0#32, 0#32, 0#32⟩

/-- EM holding a NOOP (R166). -/
def ExecBuffer.noop : ExecBuffer := ⟨.add, 0, false, 0#32, 0#32⟩

/-- MW holding a NOOP (R166). -/
def MemBuffer.noop : MemBuffer := ⟨.add, 0, false, 0#32⟩

/-- The four pipeline buffers and the flag that fetching has stopped behind a HALT (R148, R166). -/
structure Pipeline where
  fd       : FetchBuffer
  de       : DecodeBuffer
  em       : ExecBuffer
  mw       : MemBuffer
  draining : Bool
deriving DecidableEq, Repr

/-- The empty pipeline: a NOOP in every buffer, not draining (R33, R167, D21). -/
def Pipeline.empty : Pipeline := ⟨.noop, .noop, .noop, .noop, false⟩

/-- All the state the spec gives the machine. `step` (one instruction, R3) reads and writes the architectural fields
and leaves `pipe` alone; `cycle` (one clock cycle of R166) uses every field, with `pc` the fetch address. -/
structure State where
  /-- `x[0..15]` (R20, R21) -/
  regs   : RegFile
  /-- the program counter, 32 bits (R24, D1) -/
  pc     : Word
  /-- set by HALT, cleared by nothing but reset (R29) -/
  halted : Bool
  /-- the instruction memory, read by fetch only (R30, R43) -/
  imem   : Memory
  /-- the data memory, read by LW and written by SW (R30, R43) -/
  dmem   : Memory
  /-- the pipeline's buffers (R32, R148) -/
  pipe   : Pipeline
deriving DecidableEq, Repr

/-- The machine right after reset, before a program is loaded (R33, R167): `x[1..15]` and unlisted memory at the
values of log entries 3 and 2. -/
def State.reset : State :=
  { regs := Vector.replicate 16 Config.resetReg, pc := Config.resetPc, halted := false, imem := [], dmem := [],
    pipe := Pipeline.empty }

/-- The launch state of R33 for given open parameters: `init_regs` (D4; slot 0 is forced to zero) and `image`, the
same contents in both memories (D5, R43). -/
def State.launch (initRegs : RegFile) (image : Memory) : State :=
  { State.reset with regs := initRegs.set 0 0#32, imem := image, dmem := image }

end Sys2Proof.Machine
end

