-- ==== Sys2Proof/Machine/Ops.lean ====
section
/-! DEFINITION. The named operations over registers, memories and the program counter (spec/00_scope.md R5,
spec/10_state.md R21, spec/20_memory.md R41 to R43). The machine takes no exception and returns from none
(spec/60_exceptions.md R120, R125, R126), so no such operation stands here. -/

namespace Sys2Proof.Machine

/-- Read of `x[r]`: register 0 reads as zero (R21). -/
def RegFile.read (f : RegFile) (r : RegNum) : Word := if r = 0 then 0#32 else f[r.val]

/-- Write of `x[r]`: a write to register 0 is discarded (R21). -/
def RegFile.write (f : RegFile) (r : RegNum) (v : Word) : RegFile := if r = 0 then f else f.set r.val v

/-- The word listed at address `a`, or the unlisted word. -/
def Memory.read : Memory → Nat → Word
  | [], _          => Config.unlistedWord
  | (k, v) :: m, a => if k = a then v else Memory.read m a

/-- Set the word at address `a`, keeping the canonical form: the unlisted word is never listed. -/
def Memory.write : Memory → Nat → Word → Memory
  | [], a, v => if v = Config.unlistedWord then [] else [(a, v)]
  | (k, w) :: m, a, v =>
    if k < a then (k, w) :: Memory.write m a v
    else if v = Config.unlistedWord then (if k = a then m else (k, w) :: m)
    else if k = a then (a, v) :: m
    else (a, v) :: (k, w) :: m

/-- Every key is at least `lo` and below 2^24, keys rise strictly, and no entry is the unlisted word. -/
def Memory.wfFrom : Nat → Memory → Bool
  | _, []           => true
  | lo, (k, v) :: m =>
    decide (lo ≤ k) && decide (k < Config.memWords) && decide (v ≠ Config.unlistedWord) && Memory.wfFrom (k + 1) m

/-- The canonical form of a memory. -/
def Memory.wf (m : Memory) : Bool := Memory.wfFrom 0 m

/-- Write a list of words from address `a` upward, wrapping at 2^24. -/
def Memory.load : Memory → Nat → List Word → Memory
  | m, _, []      => m
  | m, a, w :: ws => Memory.load (m.write (a % Config.memWords) w) (a + 1) ws

/-- The image of an assembled program: its word `i` at address `i`, over the open rest (D5, R47). -/
def programImage (ws : List Word) (rest : Memory) : Memory := rest.load 0 ws

/-- The memory index of a 32-bit address: bits 31:24 are discarded on access (R41). -/
def memIndex (addr : Word) : Nat := (addr.extractLsb' 0 24).toNat

/-- `x[r]`. -/
def State.readReg (s : State) (r : RegNum) : Word := s.regs.read r

/-- `x[r] <- v`. -/
def State.writeReg (s : State) (r : RegNum) (v : Word) : State := { s with regs := s.regs.write r v }

/-- `pc <- t`. -/
def State.setPc (s : State) (t : Word) : State := { s with pc := t }

/-- The incremented program counter, `pc + 1` modulo 2^32 (R6, R26). -/
def State.npc (s : State) : Word := s.pc + 1#32

/-- `pc <- pc + 1`: normal sequential execution (R24, R25). -/
def State.advance (s : State) : State := s.setPc s.npc

/-- `MemRead(addr, 32)`: the data-memory word at `addr[23:0]` (R42). It cannot fail. -/
def State.memRead (s : State) (addr : Word) : Word := s.dmem.read (memIndex addr)

/-- `MemWrite(addr, 32, v)`: the data-memory word at `addr[23:0]` becomes `v` (R42). It cannot fail. -/
def State.memWrite (s : State) (addr v : Word) : State := { s with dmem := s.dmem.write (memIndex addr) v }

/-- `IFetch(addr)`: the instruction-memory word at `addr[23:0]` (R43, D16). -/
def State.ifetch (s : State) (addr : Word) : Word := s.imem.read (memIndex addr)

/-- `halted <- true` (R111). -/
def State.halt (s : State) : State := { s with halted := true }

/-- The outcome of R121 for a word that decodes to no instruction. -/
def stopFor : Reject → Host.Outcome State Fault Refusal
  | .illegalInstruction w => .fault (.illegalInstruction w)
  | .reservedSkpMode w    => .refused (.reservedSkpMode w)
  | .reservedGotoField w  => .refused (.reservedGotoField w)
  | .nonzeroUnusedBits w  => .refused (.nonzeroUnusedBits w)
  | .jalrAlias w          => .refused (.jalrAlias w)

end Sys2Proof.Machine
end

