-- ==== Sys2Proof/Machine/Operands.lean ====
section
/-! DEFINITION. Operand forms: the sign-extended immediate, the effective address, the pc-relative target
(spec/30_encoding.md R70, spec/42_lea_lw_sw.md R103, spec/41_skip_goto.md R92), and which registers an instruction
reads and writes (spec/10_state.md R34, spec/70_reset_and_hazards.md R154). -/

namespace Sys2Proof.Machine

/-- `sext_32` of a 20-bit field (R5, R70). -/
def sext32 (v : Imm20) : Word := v.signExtend 32

/-- The effective address of LW and SW, `x[BaseR] + sext_32(offset20)` modulo 2^32 (R103). -/
def State.effectiveAddress (s : State) (base : RegNum) (off : Imm20) : Word := s.readReg base + sext32 off

/-- The pc-relative address of GOTO and LEA, `(pc + 1) + sext_32(PCoffset20)` modulo 2^32 (R92, R100). -/
def State.pcRelative (s : State) (off : Imm20) : Word := s.npc + sext32 off

end Sys2Proof.Machine

namespace Sys2Proof

/-- The register of an instruction's first operand value, `a` of R149 (R34, R154). -/
def Instr.srcA : Instr → Option RegNum
  | .add _ sr1 _   => some sr1
  | .addi _ sr1 _  => some sr1
  | .nand _ sr1 _  => some sr1
  | .skpe sr1 _    => some sr1
  | .skpgt sr1 _   => some sr1
  | .goto _        => none
  | .lea _ _       => none
  | .lw _ base _   => some base
  | .sw _ base _   => some base
  | .jalr tgt _    => some tgt
  | .halt          => none

/-- The register of an instruction's second operand value, `b` of R149 (R34, R154). -/
def Instr.srcB : Instr → Option RegNum
  | .add _ _ sr2   => some sr2
  | .addi _ _ _    => none
  | .nand _ _ sr2  => some sr2
  | .skpe _ sr2    => some sr2
  | .skpgt _ sr2   => some sr2
  | .goto _        => none
  | .lea _ _       => none
  | .lw _ _ _      => none
  | .sw sr _ _     => some sr
  | .jalr _ _      => none
  | .halt          => none

/-- The register an instruction writes (R34, R145, R154). -/
def Instr.dest : Instr → Option RegNum
  | .add dr _ _   => some dr
  | .addi dr _ _  => some dr
  | .nand dr _ _  => some dr
  | .skpe _ _     => none
  | .skpgt _ _    => none
  | .goto _       => none
  | .lea dr _     => some dr
  | .lw dr _ _    => some dr
  | .sw _ _ _     => none
  | .jalr _ link  => some link
  | .halt         => none

/-- The instruction names the register in a source field (R34). -/
def Instr.reads (i : Instr) (r : RegNum) : Bool := decide (i.srcA = some r) || decide (i.srcB = some r)

/-- What the instruction is, without its operands. -/
def Instr.stageOp : Instr → Machine.StageOp
  | .add _ _ _   => .add
  | .addi _ _ _  => .addi
  | .nand _ _ _  => .nand
  | .skpe _ _    => .skpe
  | .skpgt _ _   => .skpgt
  | .goto _      => .goto
  | .lea _ _     => .lea
  | .lw _ _ _    => .lw
  | .sw _ _ _    => .sw
  | .jalr _ _    => .jalr
  | .halt        => .halt

end Sys2Proof
end

