-- ==== Sys2Proof/Machine/Flags.lean ====
section
/-! DEFINITION. The machine has no flags, no condition codes and no predicate registers (spec/10_state.md R27): no
instruction writes one and none is kept. What stands in their place is here: the two comparisons that SKP makes of two
register values (spec/41_skip_goto.md R90, R91, R93). -/

namespace Sys2Proof.Machine

/-- SKPE's comparison: equality of all 32 bits (R90). -/
def skpEqual (a b : Word) : Bool := decide (a = b)

/-- SKPGT's comparison: `signed(a) > signed(b)`, two's complement (R91, R93). -/
def skpGreater (a b : Word) : Bool := decide (b.toInt < a.toInt)

/-- The pc after a SKP: `pc + 2` when the comparison succeeds, else `pc + 1`, modulo 2^32 (R25, R90, R91). -/
def State.skip (s : State) (success : Bool) : State :=
  if success then s.setPc (s.npc + 1#32) else s.advance

end Sys2Proof.Machine
end

