-- ==== Sys2Proof/Machine/Alu.lean ====
section
/-! DEFINITION. ADD, ADDI and NAND (spec/40_alu.md R80 to R84). Both sources are read before the destination is
written; sums are modulo 2^32 (R83, D6). -/

namespace Sys2Proof.Machine

/-- The shared end of a register-writing instruction: `x[dr] <- v; pc <- pc + 1`. -/
def State.writeBack (s : State) (dr : RegNum) (v : Word) : Host.Outcome State Fault Refusal :=
  .next (s.writeReg dr v).advance

/-- ADD: `x[DR] <- x[SR1] + x[SR2]; pc <- pc + 1` (R80). -/
def execAdd (dr sr1 sr2 : RegNum) (s : State) : Host.Outcome State Fault Refusal :=
  s.writeBack dr (s.readReg sr1 + s.readReg sr2)

/-- ADDI: `x[DR] <- x[SR1] + sext_32(immval20); pc <- pc + 1` (R81). -/
def execAddi (dr sr1 : RegNum) (imm : Imm20) (s : State) : Host.Outcome State Fault Refusal :=
  s.writeBack dr (s.readReg sr1 + sext32 imm)

/-- NAND: `x[DR] <- ~(x[SR1] & x[SR2]); pc <- pc + 1` (R82). -/
def execNand (dr sr1 sr2 : RegNum) (s : State) : Host.Outcome State Fault Refusal :=
  s.writeBack dr (~~~(s.readReg sr1 &&& s.readReg sr2))

end Sys2Proof.Machine
end

