-- ==== Sys2Proof/Machine/Branch.lean ====
section
/-! DEFINITION. SKPE, SKPGT and GOTO (spec/41_skip_goto.md R90 to R93). They change the pc only. -/

namespace Sys2Proof.Machine

/-- SKPE: skip the next instruction when `x[SR1] = x[SR2]` (R90). -/
def execSkpe (sr1 sr2 : RegNum) (s : State) : Host.Outcome State Fault Refusal :=
  .next (s.skip (skpEqual (s.readReg sr1) (s.readReg sr2)))

/-- SKPGT: skip the next instruction when `signed(x[SR1]) > signed(x[SR2])` (R91). -/
def execSkpgt (sr1 sr2 : RegNum) (s : State) : Host.Outcome State Fault Refusal :=
  .next (s.skip (skpGreater (s.readReg sr1) (s.readReg sr2)))

/-- GOTO: `pc <- (pc + 1) + sext_32(PCoffset20)` (R92). -/
def execGoto (off : Imm20) (s : State) : Host.Outcome State Fault Refusal :=
  .next (s.setPc (s.pcRelative off))

end Sys2Proof.Machine
end

