-- ==== Sys2Proof/Machine/Jump.lean ====
section
/-! DEFINITION. JALR and HALT (spec/43_jalr_halt.md R110 to R112). -/

namespace Sys2Proof.Machine

/-- JALR's effect in the order of the text: `x[RA] <- pc + 1`, then `pc <- x[AT]` (R110, R112). With AT = RA, not
register 0, the pc receives the value just written. -/
def State.jumpAndLink (s : State) (tgt link : RegNum) : State :=
  let t := s.writeReg link s.npc
  t.setPc (t.readReg tgt)

/-- JALR: `x[RA] <- pc + 1; pc <- x[AT]` (R110). Under `jalr_alias = refuse` a word with AT = RA, not register 0, is
refused by the decoder and does not come here (R112, R121 d). -/
def execJalr (tgt link : RegNum) (s : State) : Host.Outcome State Fault Refusal := .next (s.jumpAndLink tgt link)

/-- HALT: `halted <- true`; the pc stays at the HALT's address (R111, D15, log entry 11). -/
def execHalt (s : State) : Host.Outcome State Fault Refusal := .next s.halt

end Sys2Proof.Machine
end

