-- ==== Sys2Proof/Machine/Mem.lean ====
section
/-! DEFINITION. LEA, LW and SW (spec/42_lea_lw_sw.md R100 to R103). Loads and stores reach the data memory only
(spec/20_memory.md R42, R43). -/

namespace Sys2Proof.Machine

/-- LEA: `x[DR] <- (pc + 1) + sext_32(PCoffset20); pc <- pc + 1`, the full 32-bit sum (R100). -/
def execLea (dr : RegNum) (off : Imm20) (s : State) : Host.Outcome State Fault Refusal :=
  .next (s.writeReg dr (s.pcRelative off)).advance

/-- LW: `x[DR] <- MemRead(x[BaseR] + sext_32(offset20), 32); pc <- pc + 1` (R101). -/
def execLw (dr base : RegNum) (off : Imm20) (s : State) : Host.Outcome State Fault Refusal :=
  .next (s.writeReg dr (s.memRead (s.effectiveAddress base off))).advance

/-- SW: `MemWrite(x[BaseR] + sext_32(offset20), 32, x[SR]); pc <- pc + 1` (R102). -/
def execSw (sr base : RegNum) (off : Imm20) (s : State) : Host.Outcome State Fault Refusal :=
  .next (s.memWrite (s.effectiveAddress base off) (s.readReg sr)).advance

end Sys2Proof.Machine
end

