-- ==== Sys2Proof/Machine/Dispatch.lean ====
section
/-! DEFINITION. From an instruction to its meaning: one arm per constructor (spec/30_encoding.md R61). -/

namespace Sys2Proof.Machine

def exec (i : Instr) (s : State) : Host.Outcome State Fault Refusal :=
  match i with
  -- spec/40_alu.md
  | .add dr sr1 sr2 => Sys2Proof.Machine.execAdd dr sr1 sr2 s
  | .addi dr sr1 imm => Sys2Proof.Machine.execAddi dr sr1 imm s
  | .nand dr sr1 sr2 => Sys2Proof.Machine.execNand dr sr1 sr2 s
  -- spec/41_skip_goto.md
  | .skpe sr1 sr2 => Sys2Proof.Machine.execSkpe sr1 sr2 s
  | .skpgt sr1 sr2 => Sys2Proof.Machine.execSkpgt sr1 sr2 s
  | .goto off => Sys2Proof.Machine.execGoto off s
  -- spec/42_lea_lw_sw.md
  | .lea dr off => Sys2Proof.Machine.execLea dr off s
  | .lw dr base off => Sys2Proof.Machine.execLw dr base off s
  | .sw sr base off => Sys2Proof.Machine.execSw sr base off s
  -- spec/43_jalr_halt.md
  | .jalr tgt link => Sys2Proof.Machine.execJalr tgt link s
  | .halt => Sys2Proof.Machine.execHalt s

end Sys2Proof.Machine
end

