-- ==== Sys2Proof/Machine/Fetch.lean ====
section
/-! DEFINITION. Fetching and decoding the instruction at the pc (spec/20_memory.md R43, spec/30_encoding.md R75). -/

namespace Sys2Proof.Machine

/-- The word fetched at the pc, `imem[pc[23:0]]` (R24, R43). -/
def State.fetchWord (s : State) : Word := s.ifetch s.pc

/-- The instruction at the pc, or why the word is none. -/
def State.fetch (s : State) : Except Reject Instr := decode s.fetchWord

/-- The state with a word placed at the pc's address in the instruction memory and running. -/
def State.placeWord (s : State) (w : Word) : State :=
  { s with imem := s.imem.write (memIndex s.pc) w, halted := false }

end Sys2Proof.Machine
end

