-- ==== Sys2Proof/Machine/Step.lean ====
section
/-! DEFINITION. One step: one instruction, completely (spec/00_scope.md R3). -/

namespace Sys2Proof.Machine

/-- A halted machine does nothing (R29); otherwise the word at the pc is fetched, decoded and executed (R3, R75), and
a word that is no instruction stops the model as R121 says. -/
def step (s : State) : Host.Outcome State Fault Refusal :=
  if s.halted then .next s
  else
    match s.fetch with
    | .ok i    => exec i s
    | .error r => stopFor r

/-- `s` with the table's word where `step` fetches next, and not halted, so that the next step runs it. Only the
instruction memory takes it (log entry 13). -/
def State.withFetchWord (s : State) (nbits w : Nat) : State := s.placeWord (tableWord nbits w)

end Sys2Proof.Machine
end

