-- ==== Sys2Proof/Machine/Assembler.lean ====
section
/-! DEFINITION. What the spec gives of the assembler: the register names (spec/10_state.md R22), one line form per
instruction (spec/30_encoding.md R71), label operands (R72) and the range of immediates (R74). Labels stand as the
addresses they name, since the spec gives no syntax for defining one. -/

namespace Sys2Proof.Asm

/-- The register of a number, none outside 0 to 15 (R20). -/
def register (n : Nat) : Option RegNum := if h : n < 16 then some ⟨n, h⟩ else none

/-- The 20-bit field of an integer. One that does not fit is rejected, never truncated (R74, D20). -/
def immediate (z : Int) : Option Imm20 := if immediateOk z then some (BitVec.ofInt 20 z) else none

/-- The field for a label operand of the instruction at address `a`: `label - (a + 1)` (R72). -/
def labelOffset (a label : Word) : Option Imm20 := immediate ((label.toNat : Int) - ((a.toNat : Int) + 1))

/-- The assembler's names of the registers, in order (R22). -/
def registerNames : List String :=
  ["$zero", "$at", "$v0", "$a0", "$a1", "$a2", "$t0", "$t1", "$t2", "$s0", "$s1", "$s2", "$k0", "$sp", "$fp", "$ra"]

/-- The number of a register name, none for another text. -/
def registerNamed (name : String) : Option RegNum := register (registerNames.idxOf name)

/-- An assembler line with its operands as plain numbers and its labels as addresses, in the order of R71. -/
inductive Line where
  | add (dr sr1 sr2 : Nat)
  | addi (dr sr1 : Nat) (imm : Int)
  | nand (dr sr1 sr2 : Nat)
  | skpe (sr1 sr2 : Nat)
  | skpgt (sr1 sr2 : Nat)
  | goto (label : Word)
  | lea (dr : Nat) (label : Word)
  | lw (dr : Nat) (off : Int) (base : Nat)
  | sw (sr : Nat) (off : Int) (base : Nat)
  | jalr (tgt link : Nat)
  | halt
deriving DecidableEq, Repr

/-- The instruction of a line at address `a`, none for a line with an operand out of range (R71, R72, R74). -/
def assemble (a : Word) : Line → Option Instr
  | .add dr sr1 sr2  => return .add (← register dr) (← register sr1) (← register sr2)
  | .addi dr sr1 imm => return .addi (← register dr) (← register sr1) (← immediate imm)
  | .nand dr sr1 sr2 => return .nand (← register dr) (← register sr1) (← register sr2)
  | .skpe sr1 sr2    => return .skpe (← register sr1) (← register sr2)
  | .skpgt sr1 sr2   => return .skpgt (← register sr1) (← register sr2)
  | .goto label      => return .goto (← labelOffset a label)
  | .lea dr label    => return .lea (← register dr) (← labelOffset a label)
  | .lw dr off base  => return .lw (← register dr) (← register base) (← immediate off)
  | .sw sr off base  => return .sw (← register sr) (← register base) (← immediate off)
  | .jalr tgt link   => return .jalr (← register tgt) (← register link)
  | .halt            => some .halt

/-- The word of a line at address `a`, with zeros in every unused field (R68, R71). -/
def assembleWord (a : Word) (l : Line) : Option Word := (assemble a l).map encode

end Sys2Proof.Asm
end

