-- ==== Sys2Proof/Machine/Pipeline.lean ====
section
/-! DEFINITION. One clock cycle of the five-stage pipeline: the reference listing of spec/70_reset_and_hazards.md R166,
stage by stage (R140 to R165). All right sides are taken on the state at the start of the cycle, but that ID/RR sees
the results EX and MEM compute in it (forwarding, R153); all updates land together at the clock edge. -/

namespace Sys2Proof.Machine

/-- WB: the instruction in MW writes a register, other than register 0 (R145, R157, R158). -/
def MemBuffer.writes (mw : MemBuffer) : Bool := mw.wr && decide (mw.dst ≠ 0)

/-- WB: the register file at the end of the cycle (R145, R158). -/
def State.wbRegs (s : State) : RegFile :=
  if s.pipe.mw.writes then s.regs.set s.pipe.mw.dst.val s.pipe.mw.val else s.regs

/-- MEM: the value passed to WB, the loaded word for LW, else the value computed in EX (R104, R144). -/
def State.memValue (s : State) : Word :=
  if s.pipe.em.op = .lw then s.memRead s.pipe.em.val else s.pipe.em.val

/-- MEM: the data memory at the end of the cycle (R144). -/
def State.memDmem (s : State) : Memory :=
  if s.pipe.em.op = .sw then s.dmem.write (memIndex s.pipe.em.val) s.pipe.em.sdata else s.dmem

/-- EX: the ALU value, address or link value (R143, R149). The listing leaves it open for an instruction that has
none; zero stands there, and no register or memory receives it (DESIGN CHOICE, log entry 14). -/
def DecodeBuffer.exValue (de : DecodeBuffer) : Word :=
  match de.op with
  | .add        => de.a + de.b
  | .addi       => de.a + de.imm
  | .nand       => ~~~(de.a &&& de.b)
  | .lea        => de.npc + de.imm
  | .lw         => de.a + de.imm
  | .sw         => de.a + de.imm
  | .jalr       => de.npc
  | .skpe       => 0#32
  | .skpgt      => 0#32
  | .goto       => 0#32
  | .halt       => 0#32
  | .reserved _ => 0#32

/-- EX: the branch in EX is taken (R161). -/
def DecodeBuffer.taken (de : DecodeBuffer) : Bool :=
  match de.op with
  | .skpe       => skpEqual de.a de.b
  | .skpgt      => skpGreater de.a de.b
  | .goto       => true
  | .jalr       => true
  | .add        => false
  | .addi       => false
  | .nand       => false
  | .lea        => false
  | .lw         => false
  | .sw         => false
  | .halt       => false
  | .reserved _ => false

/-- EX: JALR names one register, not register 0, as AT and RA (R112). -/
def DecodeBuffer.aliased (de : DecodeBuffer) : Bool := decide (de.srcA = de.dst) && decide (de.dst ≠ 0)

/-- EX: the target of a taken branch (R161). JALR with AT = RA follows the note after the listing of R166, so that it
agrees with the sequential order (C6, D11, log entry 10). For an instruction that is never taken the listing leaves it
open; `npc` stands there, and nothing reads it (DESIGN CHOICE, log entry 14). -/
def DecodeBuffer.target (de : DecodeBuffer) : Word :=
  match de.op with
  | .goto       => de.npc + de.imm
  | .jalr       => if de.aliased then de.npc else de.a
  | .skpe       => de.npc + 1#32
  | .skpgt      => de.npc + 1#32
  | .add        => de.npc
  | .addi       => de.npc
  | .nand       => de.npc
  | .lea        => de.npc
  | .lw         => de.npc
  | .sw         => de.npc
  | .halt       => de.npc
  | .reserved _ => de.npc

/-- EX: what passes to MEM (R148). The store data is `b` for every instruction: R148 and the listing of R166 give it for
SW only and leave it open for the others (DESIGN CHOICE, log entry 14; MEM reads it for SW alone). -/
def DecodeBuffer.execute (de : DecodeBuffer) : ExecBuffer :=
  { op := de.op, dst := de.dst, wr := de.wr, val := de.exValue, sdata := de.b }

/-- ID/RR: the source register cannot be had yet, because a LW in EX writes it (R156); register 0 never stalls
(R157). -/
def State.operandStalls (s : State) (r : RegNum) : Bool :=
  decide (r ≠ 0) && s.pipe.de.wr && decide (s.pipe.de.dst = r) && decide (s.pipe.de.op = .lw)

/-- ID/RR: the value of a source register, from the youngest older instruction that writes it: EX, then MEM, then WB,
then the register file (R153, R155); register 0 is never forwarded (R157). -/
def State.operand (s : State) (r : RegNum) : Word :=
  if r = 0 then 0#32
  else if s.pipe.de.wr = true ∧ s.pipe.de.dst = r then s.pipe.de.exValue
  else if s.pipe.em.wr = true ∧ s.pipe.em.dst = r then s.memValue
  else if s.pipe.mw.writes = true ∧ s.pipe.mw.dst = r then s.pipe.mw.val
  else s.regs.read r

/-- ID/RR: an operand value. For an instruction without that operand (R154) the listing of R166 leaves it open; zero
stands there (DESIGN CHOICE, log entry 14). -/
def State.operandOr0 (s : State) : Option RegNum → Word
  | none   => 0#32
  | some r => s.operand r

/-- ID/RR: one operand stalls; an instruction without that operand does not (R154). -/
def State.operandStallsOpt (s : State) : Option RegNum → Bool
  | none   => false
  | some r => s.operandStalls r

/-- ID/RR: what the fetched word and two operand values make of the DE buffer (R142, R148). The listing of R166 leaves
open the number of a register that the instruction does not name and every field of a word that is no instruction; 0
stands there, with `wr` false (DESIGN CHOICE, log entry 14). -/
def decodeBuffer (insn npc : Word) (value : Option RegNum → Word) : DecodeBuffer :=
  match decode insn with
  | .ok i =>
    { op := i.stageOp, srcA := i.srcA.getD 0, dst := i.dest.getD 0, wr := i.dest.isSome,
      a := value i.srcA, b := value i.srcB, imm := sext32 (immField insn), npc := npc }
  | .error r =>
    { op := .reserved r, srcA := 0, dst := 0, wr := false,
      a := 0#32, b := 0#32, imm := sext32 (immField insn), npc := npc }

/-- ID/RR: the next DE buffer when nothing overrides (R142, R149). -/
def State.idBuffer (s : State) : DecodeBuffer := decodeBuffer s.pipe.fd.insn s.pipe.fd.npc s.operandOr0

/-- ID/RR: the instruction in FD must wait one cycle (R151, R156). A word that decodes to no instruction never waits. For
a SKP word of a reserved mode R154 leaves that open, since it gives SKP's sources without the mode (DESIGN CHOICE, log
entry 14). -/
def State.idStalls (s : State) : Bool :=
  match decode s.pipe.fd.insn with
  | .ok i    => s.operandStallsOpt i.srcA || s.operandStallsOpt i.srcB
  | .error _ => false

/-- IF: the next FD buffer when nothing overrides (R141). -/
def State.ifBuffer (s : State) : FetchBuffer := ⟨s.ifetch s.pc, s.npc⟩

/-- What the front of the pipeline does in this cycle, in the priority of R166. -/
inductive FrontEnd where
  /-- a HALT is in EX or was: fetching has stopped -/
  | drain
  /-- a taken branch is in EX: the two younger instructions are cancelled (R161 to R164) -/
  | flush (target : Word)
  /-- the load-use stall (R151, R152, R156) -/
  | stall
  /-- nothing overrides -/
  | advance
deriving DecidableEq, Repr

/-- A HALT first, then a taken branch, then a stall: a flush overrides a stall (R163, R166). -/
def State.frontEnd (s : State) : FrontEnd :=
  if s.pipe.draining = true ∨ s.pipe.de.op = .halt then .drain
  else if s.pipe.de.taken then .flush s.pipe.de.target
  else if s.idStalls then .stall
  else .advance

/-- FD at the clock edge. -/
def State.nextFd (s : State) : FetchBuffer :=
  match s.frontEnd with
  | .drain   => .noop
  | .flush _ => .noop
  | .stall   => s.pipe.fd
  | .advance => s.ifBuffer

/-- DE at the clock edge. -/
def State.nextDe (s : State) : DecodeBuffer :=
  match s.frontEnd with
  | .drain   => .noop
  | .flush _ => .noop
  | .stall   => .noop
  | .advance => s.idBuffer

/-- The fetch pc at the clock edge (R141, R151, R161). -/
def State.nextPc (s : State) : Word :=
  match s.frontEnd with
  | .drain        => s.pc
  | .flush target => target
  | .stall        => s.pc
  | .advance      => s.npc

/-- The state after the clock edge. `halted` becomes true at the end of the cycle in which a HALT is in WB (D19). -/
def State.clockEdge (s : State) : State :=
  { regs   := s.wbRegs
    pc     := s.nextPc
    halted := s.halted || decide (s.pipe.mw.op = .halt)
    imem   := s.imem
    dmem   := s.memDmem
    pipe   :=
      { fd       := s.nextFd
        de       := s.nextDe
        em       := s.pipe.de.execute
        mw       := ⟨s.pipe.em.op, s.pipe.em.dst, s.pipe.em.wr, s.memValue⟩
        draining := s.pipe.draining || decide (s.pipe.de.op = .halt) } }

/-- One clock cycle. A halted machine does nothing (R29). The outcomes of R121 are raised only for an instruction that
has reached EX, where it is known to be on the correct path. -/
def cycle (s : State) : Host.Outcome State Fault Refusal :=
  if s.halted then .next s
  else
    match s.pipe.de.op with
    | .reserved r => stopFor r
    | _ => .next s.clockEdge

end Sys2Proof.Machine
end

