-- ==== Sys2Proof/Machine/Timing.lean ====
section
/-! DEFINITION. The counts of a sequential run from which the pipeline's cycle count follows
(spec/70_reset_and_hazards.md R170): instructions executed, load-use stalls, taken branches. No architectural rule
depends on them. -/

namespace Sys2Proof.Machine

/-- `N`, `L` and `T` of R170. -/
structure RunCount where
  executed : Nat
  loadUse  : Nat
  taken    : Nat
deriving DecidableEq, Repr

/-- The instruction is a branch that is taken in this state (R161). -/
def State.takes (s : State) : Instr → Bool
  | .skpe sr1 sr2  => skpEqual (s.readReg sr1) (s.readReg sr2)
  | .skpgt sr1 sr2 => skpGreater (s.readReg sr1) (s.readReg sr2)
  | .goto _        => true
  | .jalr _ _      => true
  | .add _ _ _     => false
  | .addi _ _ _    => false
  | .nand _ _ _    => false
  | .lea _ _       => false
  | .lw _ _ _      => false
  | .sw _ _ _      => false
  | .halt          => false

/-- The load-use case of R156: `i` is a LW, its DR is not 0, and the next instruction `j` reads it. -/
def loadUse (i j : Instr) : Bool :=
  match i with
  | .lw dr _ _   => decide (dr ≠ 0) && j.reads dr
  | .add _ _ _   => false
  | .addi _ _ _  => false
  | .nand _ _ _  => false
  | .skpe _ _    => false
  | .skpgt _ _   => false
  | .goto _      => false
  | .lea _ _     => false
  | .sw _ _ _    => false
  | .jalr _ _    => false
  | .halt        => false

/-- The instruction at the pc of `s` and the one at the pc of `t`, executed next, make a load-use pair. -/
def loadUsePair (s t : State) : Bool :=
  match s.fetch, t.fetch with
  | .ok i, .ok j => loadUse i j
  | _, _         => false

/-- The instruction at the pc is a taken branch. -/
def State.branches (s : State) : Bool :=
  match s.fetch with
  | .ok i    => s.takes i
  | .error _ => false

/-- The counts of `n` steps from a state; steps of a halted machine and steps that stop count nothing. -/
def tally : Nat → State → RunCount
  | 0, _     => ⟨0, 0, 0⟩
  | n + 1, s =>
    if s.halted then ⟨0, 0, 0⟩
    else
      match step s with
      | .next t =>
        let c := tally n t
        ⟨c.executed + 1, c.loadUse + (loadUsePair s t).toNat, c.taken + s.branches.toNat⟩
      | .fault _ => ⟨0, 0, 0⟩
      | .refused _ => ⟨0, 0, 0⟩

/-- `cycles = N + 4 + L + 2 * T` (R170). -/
def RunCount.cycles (c : RunCount) : Nat := c.executed + 4 + c.loadUse + 2 * c.taken

end Sys2Proof.Machine
end

