-- ==== Sys2Proof/Safety.lean ====
section
/-! DEFINITION. What claims are stated in: the invariant of the state, runs of steps, safe runs. -/

namespace Sys2Proof.Machine

/-- The invariant of the state: slot 0 of the register file is zero (R21), both memories are in canonical form. -/
def State.Inv (s : State) : Prop := s.regs[0] = 0#32 ∧ s.imem.wf = true ∧ s.dmem.wf = true

/-- `n` steps, stopping at the first fault or refusal. -/
abbrev runSteps (n : Nat) (s : State) : Host.Outcome State Fault Refusal := core.run n s

/-- The same machine, one clock cycle of R166 at a time. -/
def pipelineCore : Host.Core :=
  { State := State, Fault := Fault, Refusal := Refusal, step := cycle, reset := State.reset }

/-- `n` clock cycles, stopping at the first fault or refusal. -/
abbrev runCycles (n : Nat) (s : State) : Host.Outcome State Fault Refusal := pipelineCore.run n s

/-- The state is inside the spec's recommended premise: the pc is below 2^24 - 1, so that a 24-bit and a 32-bit pc
cannot be told apart (R24, R26, D1). -/
def State.pcBelowTop (s : State) : Prop := s.pc.toNat < Config.memWords - 1

/-- `n` steps from `s` meet no fault and no refusal. -/
def SafeRun (n : Nat) (s : State) : Prop := ∃ t, runSteps n s = .next t

/-- `n` steps from `s` end in a halted machine: the only end of a run (R29, R132). -/
def HaltsWithin (n : Nat) (s t : State) : Prop := runSteps n s = .next t ∧ t.halted = true

end Sys2Proof.Machine
end

