-- ==== Sys2Proof/Certificates/Slice0/Obligations.lean ====
section
/-! DEFINITION. The statements for the provers. Each docstring names the rule of spec/ it formalises, and the decision
D<n> of spec/92_eei_decisions.md and the log entry where a clause rests on one. -/

open Sys2Proof Sys2Proof.Machine

namespace Sys2Proof.Claims

/-- Nothing but the registers and the pc differs: every word of the data memory reads as before, and the instruction
memory, `halted` and the pipeline buffers are the same. -/
structure KeepsRest (s t : State) : Prop where
  halted : t.halted = s.halted
  imem   : t.imem = s.imem
  dmem   : ∀ a, Memory.read t.dmem a = Memory.read s.dmem a
  pipe   : t.pipe = s.pipe

/-- `exec i s` answers a next state in which `x[dr]` is `v` (nothing is written when `dr` is register 0), every other
register and everything but the pc is unchanged, and the pc is `pc'`. -/
def WritesRegister (i : Instr) (s : State) (dr : RegNum) (v pc' : Word) : Prop :=
  ∃ t, exec i s = .next t ∧ (dr ≠ 0 → t.readReg dr = v) ∧ t.readReg 0 = 0#32 ∧
    (∀ r, r ≠ dr → t.readReg r = s.readReg r) ∧ t.pc = pc' ∧ KeepsRest s t

/-- `exec i s` answers a next state that differs from `s` in the pc alone, which is `pc'`. -/
def SetsPcOnly (i : Instr) (s : State) (pc' : Word) : Prop :=
  ∃ t, exec i s = .next t ∧ t.pc = pc' ∧ (∀ r, t.readReg r = s.readReg r) ∧ KeepsRest s t

/-- The address and the word an instruction stores, if it is a store. -/
def storeOf (s : State) : Instr → Option (Nat × Word)
  | .sw sr base off => some (memIndex (s.effectiveAddress base off), s.readReg sr)
  | .add _ _ _      => none
  | .addi _ _ _     => none
  | .nand _ _ _     => none
  | .skpe _ _       => none
  | .skpgt _ _      => none
  | .goto _         => none
  | .lea _ _        => none
  | .lw _ _ _       => none
  | .jalr _ _       => none
  | .halt           => none

/-- The store made by the next step of a state. -/
def stepStore (s : State) : Option (Nat × Word) :=
  if s.halted then none
  else
    match s.fetch with
    | .ok i    => storeOf s i
    | .error _ => none

/-- The stores of the first `n` steps, in program order. -/
def storesOf : Nat → State → List (Nat × Word)
  | 0, _     => []
  | n + 1, s =>
    match step s with
    | .next t    => (stepStore s).toList ++ storesOf n t
    | .fault _   => []
    | .refused _ => []

/-- The store made by the next clock cycle of a state: the SW in MEM. -/
def cycleStore (s : State) : Option (Nat × Word) :=
  if s.halted then none
  else if s.pipe.em.op = .sw then some (memIndex s.pipe.em.val, s.pipe.em.sdata) else none

/-- The stores of the first `k` clock cycles, in order. -/
def cycleStoresOf : Nat → State → List (Nat × Word)
  | 0, _     => []
  | k + 1, s =>
    match cycle s with
    | .next t    => (cycleStore s).toList ++ cycleStoresOf k t
    | .fault _   => []
    | .refused _ => []

/-- The word of the last store to address `a` in a list of stores, else `d`. -/
def lastStored (a : Nat) (d : Word) : List (Nat × Word) → Word
  | []           => d
  | (k, v) :: es => lastStored a (if k = a then v else d) es

/-- The register file in which the instructions in WB, MEM and EX, oldest first, have written their results. -/
def regsAfterOlder (s : State) : RegFile :=
  let f := if s.pipe.mw.wr then RegFile.write s.regs s.pipe.mw.dst s.pipe.mw.val else s.regs
  let g := if s.pipe.em.wr then RegFile.write f s.pipe.em.dst s.memValue else f
  if s.pipe.de.wr then RegFile.write g s.pipe.de.dst s.pipe.de.exValue else g

/-- The state with another word and incremented pc in buffer FD. -/
def withFd (s : State) (fd : FetchBuffer) : State := { s with pipe := { s.pipe with fd := fd } }

/-- The state with another instruction memory. -/
def withImem (s : State) (m : Memory) : State := { s with imem := m }

/-- Registers, both memories and `halted` agree; the pc and the pipeline buffers may differ (R166, C8). -/
structure SameResults (t u : State) : Prop where
  regs   : u.regs = t.regs
  dmem   : u.dmem = t.dmem
  imem   : u.imem = t.imem
  halted : u.halted = t.halted

end Sys2Proof.Claims

open Sys2Proof.Claims

/-! ## Encoding -/

/-- Words of spec/95_test_vectors.md section 2, written bit by bit from the encodings of R62 to R66, decode to the
instructions they stand for. -/
def Obligations.SpecWordsDecode : Prop :=
  decode 0b00000010001100000000000000000100#32 = .ok (.add 2 3 4) ∧
  decode 0b00010110000010000000000000000000#32 = .ok (.addi 6 0 (-524288)) ∧
  decode 0b00100111011000000000000000000110#32 = .ok (.nand 7 6 6) ∧
  decode 0b00110000001100000000000000000100#32 = .ok (.skpe 3 4) ∧
  decode 0b00110001011000000000000000000000#32 = .ok (.skpgt 6 0) ∧
  decode 0b01000000000011111111111111111011#32 = .ok (.goto (-5)) ∧
  decode 0b01010011000000000000000000000111#32 = .ok (.lea 3 7) ∧
  decode 0b10000110011100000000000000000101#32 = .ok (.lw 6 7 5) ∧
  decode 0b10010111001100000000000000000001#32 = .ok (.sw 7 3 1) ∧
  decode 0b11000110111100000000000000000000#32 = .ok (.jalr 6 15) ∧
  decode 0b11110000000000000000000000000000#32 = .ok .halt

/-- Every well-formed instruction decodes from its own word, under every setting of the four parameters: an encoded
word has zeros in its unused bits, mode 0 or 1 and a zero fixed field (R62 to R66, R75). The one exception is the second
clause: under `jalr_alias = refuse` JALR with AT = RA, not register 0, is refused with its word, the spec's decision D11
(R121 d, log entry 10). -/
def Obligations.DecodeOfEncodeIsTheInstruction : Prop :=
  (∀ (o : Config.Options) (i : Instr), i.wellFormed = true →
    (o.jalrAlias = .refuse → ∀ r, i = .jalr r r → r = 0) → decodeWith o (encode i) = .ok i) ∧
  (∀ (o : Config.Options) (r : RegNum), o.jalrAlias = .refuse → r ≠ 0 →
    decodeWith o (encode (.jalr r r)) = .error (.jalrAlias (encode (.jalr r r))))

/-- The other direction: a word that decodes is the encoding of what it decodes to, but for its row's unused bits, so
that decoding drops no other bit (R61 to R68). It holds because no reserved SKP mode, no GOTO word with a nonzero fixed
field and no reserved opcode decodes: the spec's decisions D10, D8 and D9 (log entries 7, 8, 12). That a word with
nonzero unused bits decodes at all is D7 (log entry 9), and that a JALR word with AT = RA does is D11 (log entry
10). -/
def Obligations.EncodeOfDecodeClearsUnusedBitsOnly : Prop :=
  ∀ (w : Word) (i : Instr), decode w = .ok i → encode i = w &&& ~~~i.row.unused

/-- Any value in the unused bits of a word leaves its decoding alone. This is the spec's decision D7 (R68, log
entry 9). -/
def Obligations.UnusedBitsAreIgnored : Prop :=
  ∀ (w v : Word) (i : Instr), decode w = .ok i →
    decode ((w &&& ~~~i.row.unused) ||| (v &&& i.row.unused)) = .ok i

/-- The decoder and the table of spec/opcode_table.json agree on every word: what decodes hits its row, a word that
hits a row decodes to an instruction of it, and no word hits two rows (R61, R75). That a word that hits a row decodes
whatever its unused bits hold is the spec's decision D7 (log entry 9); that no reserved SKP mode and no GOTO word with
a nonzero fixed field decodes rests on the defaults of D10 and D8 (log entries 7, 8), that no reserved opcode does on
D9 (log entry 12), and that JALR with AT = RA does on D11 (log entry 10). -/
def Obligations.DecoderAgreesWithOpcodeTable : Prop :=
  (∀ (w : Word) (i : Instr), decode w = .ok i → i.row ∈ opcodeTable ∧ i.row.hits w = true) ∧
  (∀ (w : Word) (r : OpcodeRow), r ∈ opcodeTable → r.hits w = true → ∃ i, decode w = .ok i ∧ i.row = r) ∧
  (∀ (w : Word) (r q : OpcodeRow), r ∈ opcodeTable → q ∈ opcodeTable → r.hits w = true → q.hits w = true → r = q)

/-- The strict setting of the unused-bits parameter refuses exactly the words with a nonzero unused bit, and changes
nothing else (R68, D7). -/
def Obligations.StrictSettingRefusesNonzeroUnusedBits : Prop :=
  ∀ w : Word, decodeWith { Config.options with unusedBits := .refuse } w =
    match decode w with
    | .ok i    => if w &&& i.row.unused = 0#32 then .ok i else .error (.nonzeroUnusedBits w)
    | .error r => .error r

/-- The alternative settings of the two reserved fields: with `no_skip` a SKP word of mode 2 to 15 is the NOOP, and
with `ignore` a GOTO word is a GOTO whatever its bits 27:24; every other word decodes as before (R69, D8, D10). That
the unused bits of these words play no part is the decision D7 (log entry 9). -/
def Obligations.AlternativeSettingsOfReservedFields : Prop :=
  ∀ w : Word,
    decodeWith { Config.options with skpReservedMode := .noSkip } w =
      (if opcodeField w = 3#4 ∧ 2 ≤ (modeField w).toNat then .ok (.add 0 0 0) else decode w) ∧
    decodeWith { Config.options with gotoFixedField := .ignore } w =
      (if opcodeField w = 4#4 then .ok (.goto (immField w)) else decode w)

/-! ## The step -/

/-- A running machine whose fetched word decodes to `i` does exactly `exec i`: nothing is added around it. It is the
sequential meaning of R3 with the fetch of R43. The 32-bit pc whose low 24 bits are the fetch address is the spec's
decisions D1 and D16 (log entries 4, 13), and that nothing happens between or around instructions is D14 (log entry
16). -/
def Obligations.StepRunsTheDecodedInstruction : Prop :=
  ∀ (s : State) (i : Instr), s.halted = false → decode (Memory.read s.imem (memIndex s.pc)) = .ok i →
    step s = exec i s

/-- When the model stops, in both directions: a fault on the reserved opcodes, a refusal on a reserved SKP mode and on
a GOTO with a nonzero fixed field, each with the word, and nothing else ever stops a step. These outcomes are the
spec's decisions D8, D9, D10 (R67, R69, R121, log entries 7, 8, 12). That a nonzero unused bit stops no step is the
decision D7 (log entry 9), and that JALR with AT = RA stops none is the decision D11 (log entry 10). That no pc at or
above 2^24 - 1 stops one is the model's reading of D1 and D2, where the spec recommends refusing it (R26, U8, log entry
4), and that there is no exception or interrupt is D14 (R120, log entry 16). -/
def Obligations.StopsExactlyOnReservedWords : Prop :=
  (∀ (s : State) (f : Fault), step s = .fault f ↔
    s.halted = false ∧ (opcodeField s.fetchWord).toNat ∈ [6, 7, 10, 11, 13, 14] ∧
      f = .illegalInstruction s.fetchWord) ∧
  (∀ (s : State) (r : Refusal), step s = .refused r ↔
    s.halted = false ∧
      ((opcodeField s.fetchWord = 3#4 ∧ 2 ≤ (modeField s.fetchWord).toNat ∧ r = .reservedSkpMode s.fetchWord) ∨
       (opcodeField s.fetchWord = 4#4 ∧ modeField s.fetchWord ≠ 0#4 ∧ r = .reservedGotoField s.fetchWord)))

/-- An instruction placed where the machine fetches next is what it runs: the encoded word of `i`, given by its table
number, is read back as `i` and executed by the next step (R43, R60). What State.withFetchWord changes (the instruction
memory and `halted`, nothing else) is the model's choice, log entry 13. For JALR with AT = RA, not register 0, both
clauses rest on the spec's decision D11 (log entry 10). -/
def Obligations.PlacedInstructionRunsNext : Prop :=
  ∀ (s : State) (i : Instr), s.imem.wf = true →
    decodeTableWord 32 (encode i).toNat = some i ∧
    step (s.withFetchWord 32 (encode i).toNat) = exec i (s.withFetchWord 32 (encode i).toNat)

/-- A step depends on one word of the instruction memory, the one at `pc[23:0]`: two instruction memories that agree
there give the same outcome. So a skipped word has no effect, whatever it is (R43, R90). The 32-bit pc whose low 24
bits are the fetch address is the spec's decisions D1 and D16 (log entries 4, 13). -/
def Obligations.StepDependsOnOneInstructionWord : Prop :=
  ∀ (s : State) (m : Memory), Memory.read m (memIndex s.pc) = Memory.read s.imem (memIndex s.pc) →
    (∀ t, step s = .next t → step (withImem s m) = .next (withImem t m)) ∧
    (∀ f, step s = .fault f → step (withImem s m) = .fault f) ∧
    (∀ r, step s = .refused r → step (withImem s m) = .refused r)

/-- Every instruction completes, in every state and with every operand, and changes only what it may: no register but
its destination, no data-memory word but the one SW stores to, `halted` only by HALT, and never the instruction memory
or the buffers. That no instruction raises an exception is the spec's decision D14 (R120, log entry 16), and that JALR
with AT = RA completes is D11 (log entry 10). That a pc at or above 2^24 - 1 stops none is the model's reading of D1
and D2 (log entry 4). -/
def Obligations.EveryInstructionCompletes : Prop :=
  ∀ (i : Instr) (s : State), ∃ t, exec i s = .next t ∧ t.imem = s.imem ∧ t.pipe = s.pipe ∧
    (t.halted ≠ s.halted → i = .halt) ∧
    (t.dmem ≠ s.dmem → ∃ sr base off, i = .sw sr base off) ∧
    (∀ a, (storeOf s i).map Prod.fst ≠ some a → Memory.read t.dmem a = Memory.read s.dmem a) ∧
    (t.regs ≠ s.regs → ∃ r, i.dest = some r ∧ r ≠ 0) ∧
    (∀ r, i.dest ≠ some r → t.readReg r = s.readReg r)

/-- The next pc of every instruction but HALT, whose pc no claim may read (R25, log entry 11). The sums are modulo
2^32, the spec's decisions D1 and D2 (log entry 4). The pc of JALR with AT = RA, not register 0, is the decision D11
(log entry 10). -/
def Obligations.NextPcOfEveryInstruction : Prop :=
  ∀ (i : Instr) (s : State), ∃ t, exec i s = .next t ∧
    match i with
    | .skpe sr1 sr2  => t.pc = if s.readReg sr1 = s.readReg sr2 then s.pc + 2#32 else s.pc + 1#32
    | .skpgt sr1 sr2 => t.pc = if (s.readReg sr2).toInt < (s.readReg sr1).toInt then s.pc + 2#32 else s.pc + 1#32
    | .goto off      => t.pc = s.pc + 1#32 + sext32 off
    | .jalr tgt link => t.pc = if tgt = link ∧ tgt ≠ 0 then s.pc + 1#32 else s.readReg tgt
    | .halt          => t.halted = true
    | .add _ _ _     => t.pc = s.pc + 1#32
    | .addi _ _ _    => t.pc = s.pc + 1#32
    | .nand _ _ _    => t.pc = s.pc + 1#32
    | .lea _ _       => t.pc = s.pc + 1#32
    | .lw _ _ _      => t.pc = s.pc + 1#32
    | .sw _ _ _      => t.pc = s.pc + 1#32

/-! ## Registers -/

/-- Register 0 reads as zero in every state, also through the forwarding unit, where it never stalls, and an
instruction whose destination is register 0 does all its other effects and leaves the register file unchanged (R21).
The 32-bit pc that JALR sets and the wrap of `pc + 1` are the spec's decisions D1 and D2 (log entry 4). -/
def Obligations.ZeroRegisterReadsZeroAndDiscardsWrites : Prop :=
  (∀ s : State, s.readReg 0 = 0#32 ∧ s.operand 0 = 0#32 ∧ s.operandStalls 0 = false) ∧
  (∀ (i : Instr) (s : State), i.dest = some 0 → ∃ t, exec i s = .next t ∧ t.regs = s.regs ∧ t.dmem = s.dmem ∧
    t.halted = s.halted ∧ t.pc = match i with
      | .jalr tgt _ => s.readReg tgt
      | _           => s.pc + 1#32)

/-- No instruction writes a register it does not name as its destination, and none reads a register it does not name
as a source: changing such a register beforehand changes nothing else afterwards (R34). -/
def Obligations.RegistersOutsideTheFieldsPlayNoPart : Prop :=
  (∀ (i : Instr) (s t : State) (r : RegNum), exec i s = .next t → i.dest ≠ some r → t.readReg r = s.readReg r) ∧
  (∀ (i : Instr) (s t : State) (r : RegNum) (v : Word), i.reads r = false → exec i s = .next t →
    exec i (s.writeReg r v) = .next (if i.dest = some r then t else t.writeReg r v))

/-! ## ADD, ADDI, NAND -/

/-- ADD, with its encoding (R62, R80). The sum's wrap modulo 2^32 is the spec's decision D6 (log entry 5), that of
`pc + 1` is D2 (log entry 4), and that the unused bits of the word play no part is D7 (log entry 9). -/
def Obligations.AddWritesTheSum : Prop :=
  (∀ w : Word, opcodeField w = 0#4 → decode w = .ok (.add (regField27 w) (regField23 w) (regField3 w))) ∧
  ∀ (dr sr1 sr2 : RegNum) (s : State), WritesRegister (.add dr sr1 sr2) s dr
    (BitVec.ofNat 32 ((s.readReg sr1).toNat + (s.readReg sr2).toNat)) (s.pc + 1#32)

/-- ADDI, with its encoding (R63, R81). The sum is taken on the integers and cut to 32 bits: the spec's decision D6
(log entry 5). That `pc + 1` wraps at 2^32 is D2 (log entry 4). -/
def Obligations.AddiWritesTheSumWithTheSignedImmediate : Prop :=
  (∀ w : Word, opcodeField w = 1#4 → decode w = .ok (.addi (regField27 w) (regField23 w) (immField w))) ∧
  ∀ (dr sr1 : RegNum) (imm : Imm20) (s : State), WritesRegister (.addi dr sr1 imm) s dr
    (BitVec.ofInt 32 ((s.readReg sr1).toInt + imm.toInt)) (s.pc + 1#32)

/-- NAND, with its encoding (R62, R82): bit `i` of the result is 0 exactly when bit `i` of both sources is 1. That
`pc + 1` wraps at 2^32 is the spec's decision D2 (log entry 4), and that the unused bits of the word play no part is D7
(log entry 9). -/
def Obligations.NandClearsExactlyTheCommonBits : Prop :=
  (∀ w : Word, opcodeField w = 2#4 → decode w = .ok (.nand (regField27 w) (regField23 w) (regField3 w))) ∧
  ∀ (dr sr1 sr2 : RegNum) (s : State), ∃ v : Word, WritesRegister (.nand dr sr1 sr2) s dr v (s.pc + 1#32) ∧
    ∀ i, i < 32 → (v.getLsbD i = false ↔ (s.readReg sr1).getLsbD i = true ∧ (s.readReg sr2).getLsbD i = true)

/-- The idioms: NAND of a register with itself is its complement, the all-zero word is ADD $zero, $zero, $zero and
changes nothing but the pc, and AND of two registers is two NANDs (R84). That `pc + 1` wraps at 2^32 is the spec's
decision D2 (log entry 4). -/
def Obligations.NotNoopAndAndIdioms : Prop :=
  (∀ (dr r : RegNum) (s : State), WritesRegister (.nand dr r r) s dr (~~~s.readReg r) (s.pc + 1#32)) ∧
  (decode 0#32 = .ok (.add 0 0 0) ∧ ∀ s : State, SetsPcOnly (.add 0 0 0) s (s.pc + 1#32)) ∧
  (∀ (d m a b : RegNum) (s : State), d ≠ 0 → m ≠ 0 → ∃ t u, exec (.nand m a b) s = .next t ∧
    exec (.nand d m m) t = .next u ∧ u.readReg d = s.readReg a &&& s.readReg b)

/-! ## SKPE, SKPGT, GOTO -/

/-- SKPE, with its encoding: `pc + 2` when all 32 bits of the two registers are equal, else `pc + 1`; nothing else
changes; and after a skip the word at `pc + 1` plays no part in what is fetched (R64, R90). That the pc sums wrap at
2^32 is the spec's decision D2 (log entry 4), that the fetch address is cut to 24 bits is D16 (log entry 13), and that
the unused bits of the word play no part is D7 (log entry 9). -/
def Obligations.SkpeSkipsOnEqualRegisters : Prop :=
  (∀ w : Word, opcodeField w = 3#4 → modeField w = 0#4 → decode w = .ok (.skpe (regField23 w) (regField3 w))) ∧
  ∀ (sr1 sr2 : RegNum) (s : State), SetsPcOnly (.skpe sr1 sr2) s
    (if s.readReg sr1 = s.readReg sr2 then s.pc + 2#32 else s.pc + 1#32) ∧
  ∀ (w : Word) (t : State), exec (.skpe sr1 sr2) s = .next t → s.readReg sr1 = s.readReg sr2 →
    State.fetch (withImem t (Memory.write t.imem (memIndex (s.pc + 1#32)) w)) = t.fetch

/-- SKPGT, with its encoding: `pc + 2` when the first register is greater as a signed number, else `pc + 1`; nothing
else changes (R64, R91). That the pc sums wrap at 2^32 is the spec's decision D2 (log entry 4), and that the unused
bits of the word play no part is D7 (log entry 9). -/
def Obligations.SkpgtSkipsOnSignedGreater : Prop :=
  (∀ w : Word, opcodeField w = 3#4 → modeField w = 1#4 → decode w = .ok (.skpgt (regField23 w) (regField3 w))) ∧
  ∀ (sr1 sr2 : RegNum) (s : State), SetsPcOnly (.skpgt sr1 sr2) s
    (if (s.readReg sr1).toInt > (s.readReg sr2).toInt then s.pc + 2#32 else s.pc + 1#32)

/-- The comparison of SKPGT: it skips exactly when the first operand is greater with `signed` as R93 writes it out, and
equivalently on the bit patterns: where bits 31 differ the operand with bit 31 = 0 is the greater, else the one with
the greater unsigned value (R91, R93). That `pc + 2` wraps at 2^32 is the spec's decision D2 (log entry 4). -/
def Obligations.SignedComparisonOnBitPatterns : Prop :=
  ∀ (sr1 sr2 : RegNum) (s : State) (a b : Word), a = s.readReg sr1 → b = s.readReg sr2 →
    ∃ t, exec (.skpgt sr1 sr2) s = .next t ∧
      (t.pc = s.pc + 2#32 ↔
        (if a.toNat < 2 ^ 31 then (a.toNat : Int) else (a.toNat : Int) - 2 ^ 32) >
          (if b.toNat < 2 ^ 31 then (b.toNat : Int) else (b.toNat : Int) - 2 ^ 32)) ∧
      (t.pc = s.pc + 2#32 ↔
        if a.getLsbD 31 = b.getLsbD 31 then b.toNat < a.toNat else a.getLsbD 31 = false)

/-- GOTO, with its encoding: the pc alone changes, to `(pc + 1) + sext_32(PCoffset20)` (R65, R92). The sum's wrap
modulo 2^32 is the spec's decision D2 (log entry 4), and that the unused bits of the word play no part is D7 (log
entry 9). -/
def Obligations.GotoBranchesRelativeToTheIncrementedPc : Prop :=
  (∀ w : Word, opcodeField w = 4#4 → modeField w = 0#4 → decode w = .ok (.goto (immField w))) ∧
  ∀ (off : Imm20) (s : State), SetsPcOnly (.goto off) s (BitVec.ofInt 32 ((s.pc.toNat : Int) + 1 + off.toInt))

/-! ## LEA, LW, SW -/

/-- LEA, with its encoding: the full 32-bit sum, which is the pc that GOTO with the same field would set (R65, R100).
The width of the sum and the wrap of `pc + 1` are the spec's decisions D1 and D2 (log entry 4), and that the unused bits
of the word play no part is D7 (log entry 9). -/
def Obligations.LeaWritesTheGotoTarget : Prop :=
  (∀ w : Word, opcodeField w = 5#4 → decode w = .ok (.lea (regField27 w) (immField w))) ∧
  ∀ (dr : RegNum) (off : Imm20) (s : State),
    WritesRegister (.lea dr off) s dr (BitVec.ofInt 32 ((s.pc.toNat : Int) + 1 + off.toInt)) (s.pc + 1#32) ∧
    ∃ g, exec (.goto off) s = .next g ∧ g.pc = BitVec.ofInt 32 ((s.pc.toNat : Int) + 1 + off.toInt)

/-- LW, with its encoding: the register gets the data-memory word at the low 24 bits of base plus offset, computed
from the old value of the base; nothing else changes (R63, R101, R103). That `pc + 1` wraps at 2^32 is the spec's
decision D2 (log entry 4). -/
def Obligations.LwLoadsTheAddressedWord : Prop :=
  (∀ w : Word, opcodeField w = 8#4 → decode w = .ok (.lw (regField27 w) (regField23 w) (immField w))) ∧
  ∀ (dr base : RegNum) (off : Imm20) (s : State), WritesRegister (.lw dr base off) s dr
    (Memory.read s.dmem (memIndex (s.readReg base + sext32 off))) (s.pc + 1#32)

/-- SW, with its encoding: the data-memory word at the low 24 bits of base plus offset becomes the register's value,
every other word of it reads as before, and nothing else but the pc changes (R63, R102, R103). The premise is the
invariant of StepKeepsTheInvariant. That `pc + 1` wraps at 2^32 is the spec's decision D2 (log entry 4). -/
def Obligations.SwStoresTheRegisterAtTheAddressedWord : Prop :=
  (∀ w : Word, opcodeField w = 9#4 → decode w = .ok (.sw (regField27 w) (regField23 w) (immField w))) ∧
  ∀ (sr base : RegNum) (off : Imm20) (s : State), s.dmem.wf = true → ∃ t, exec (.sw sr base off) s = .next t ∧
    Memory.read t.dmem (memIndex (s.readReg base + sext32 off)) = s.readReg sr ∧
    (∀ a, a ≠ memIndex (s.readReg base + sext32 off) → Memory.read t.dmem a = Memory.read s.dmem a) ∧
    (∀ r, t.readReg r = s.readReg r) ∧ t.pc = s.pc + 1#32 ∧ t.imem = s.imem ∧ t.halted = s.halted ∧ t.pipe = s.pipe

/-- The word that LW and SW reach is the signed sum of base and offset modulo 2^24; bits 31:24 of the base never
matter (R103; the 32-bit sum is D2, log entry 4). -/
def Obligations.EffectiveAddressIsTheSignedSumModulo2To24 : Prop :=
  ∀ (s : State) (base : RegNum) (off : Imm20),
    (memIndex (s.effectiveAddress base off) : Int) = ((s.readReg base).toNat + off.toInt) % 2 ^ 24 ∧
    (memIndex (s.effectiveAddress base off) : Int) =
      ((((s.readReg base).extractLsb' 0 24).toNat : Int) + off.toInt) % 2 ^ 24

/-- Addresses are cut to 24 bits on access and nowhere else: two addresses with the same low 24 bits read and write
the same word, an instruction fetch reads the word at the low 24 bits too, and LEA's sum keeps all 32 bits (R41). That
the pc in LEA's sum has 32 bits is the spec's decision D1 (log entry 4), and that a fetch address is cut like a data
address is D16 (log entry 13). -/
def Obligations.AddressesAreTruncatedOnAccessOnly : Prop :=
  (∀ (s : State) (a b v : Word), a.toNat % 2 ^ 24 = b.toNat % 2 ^ 24 →
    s.memRead a = s.memRead b ∧ s.memWrite a v = s.memWrite b v) ∧
  (∀ (s : State) (a : Word), s.memRead a = Memory.read s.dmem (a.toNat % 2 ^ 24)) ∧
  (∀ (s : State) (a : Word), s.ifetch a = Memory.read s.imem (a.toNat % 2 ^ 24)) ∧
  (∀ (dr : RegNum) (off : Imm20) (s : State), dr ≠ 0 → ∃ t, exec (.lea dr off) s = .next t ∧
    t.readReg dr = s.pc + 1#32 + sext32 off)

/-- The data-memory primitives: a read gives the word at the low 24 bits of the address, a word written is read back
through every address of the same word, no other word changes, and the rest of the state is untouched (R42). The premise
is the invariant of StepKeepsTheInvariant; that it and the conclusion speak of a canonical form is the model's choice
(log entry 1). -/
def Obligations.DataMemoryReadsBackWhatWasWritten : Prop :=
  ∀ (s : State) (a b v : Word), s.dmem.wf = true →
    s.memRead b = Memory.read s.dmem (b.toNat % 2 ^ 24) ∧
    (s.memWrite a v).memRead b = (if b.extractLsb' 0 24 = a.extractLsb' 0 24 then v else s.memRead b) ∧
    (s.memWrite a v).dmem.wf = true ∧ (s.memWrite a v).regs = s.regs ∧ (s.memWrite a v).pc = s.pc ∧
    (s.memWrite a v).imem = s.imem ∧ (s.memWrite a v).halted = s.halted ∧ (s.memWrite a v).pipe = s.pipe

/-- The one immediate shape: bits 19:0 are the field, bits 31:20 are copies of its bit 19, so the value is the field's
signed number, -524288 to 524287 (R70). -/
def Obligations.ImmediatesAreSignExtended : Prop :=
  ∀ v : Imm20, (∀ i, i < 20 → (sext32 v).getLsbD i = v.getLsbD i) ∧
    (∀ i, 20 ≤ i → i < 32 → (sext32 v).getLsbD i = v.getLsbD 19) ∧
    (sext32 v).toInt = v.toInt ∧ -524288 ≤ (sext32 v).toInt ∧ (sext32 v).toInt ≤ 524287

/-! ## JALR, HALT -/

/-- JALR: its encoding, for every word of the opcode; and its effect, where AT and RA are different registers or
register 0: RA gets `pc + 1` and the pc the whole old value of AT; nothing else changes (R66, R110). The 32-bit pc and
the wrap of `pc + 1` are the spec's decisions D1 and D2 (log entry 4), and that the unused bits of the word play no
part is D7 (log entry 9). That a word with AT = RA, not register 0, decodes to JALR is D11 (log entry 10); its effect
is in JalrWithOneRegisterFollowsTheParameter. -/
def Obligations.JalrLinksAndJumps : Prop :=
  (∀ w : Word, opcodeField w = 12#4 → decode w = .ok (.jalr (regField27 w) (regField23 w))) ∧
  ∀ (tgt link : RegNum) (s : State), tgt ≠ link ∨ tgt = 0 →
    WritesRegister (.jalr tgt link) s link (s.pc + 1#32) (s.readReg tgt)

/-- JALR with AT = RA, not register 0: under the default the pc falls through to `pc + 1`, which the register also
gets; under `jalr_alias = refuse` the words of this operand combination are refused, each with the word, and every
other word decodes as before. Both are the spec's decision D11 (R112, R121 d, conflict C6, log entry 10). That `pc + 1`
wraps at 2^32 is D2 (log entry 4). That the unused bits of the words play no part is D7 (log entry 9). -/
def Obligations.JalrWithOneRegisterFollowsTheParameter : Prop :=
  (∀ (r : RegNum) (s : State), r ≠ 0 → WritesRegister (.jalr r r) s r (s.pc + 1#32) (s.pc + 1#32)) ∧
  (∀ w : Word, decodeWith { Config.options with jalrAlias := .refuse } w =
    if opcodeField w = 12#4 ∧ regField27 w = regField23 w ∧ regField27 w ≠ 0 then .error (.jalrAlias w)
    else decode w) ∧
  (∀ w : Word, stopFor (.jalrAlias w) = .refused (.jalrAlias w))

/-- Call and return: JALR into a subroutine and, while the link register still holds what it stored, JALR back through
it with RA = $zero, which writes no register and lands behind the call (R110, R113). The 32-bit pc and its wrap are the
spec's decisions D1 and D2 (log entry 4). -/
def Obligations.CallAndReturnComesBack : Prop :=
  ∀ (tgt link : RegNum) (s t u : State), link ≠ 0 → tgt ≠ link → exec (.jalr tgt link) s = .next t →
    u.readReg link = t.readReg link → t.pc = s.readReg tgt ∧ SetsPcOnly (.jalr link 0) u (s.pc + 1#32)

/-- HALT, with its encoding: `halted` becomes true; no register, no word of either memory and no buffer changes
(R66, R111). The pc of the halted machine is left unsaid: no claim may read it (D15, log entry 11). That the unused bits
of the word play no part is the spec's decision D7 (log entry 9). -/
def Obligations.HaltSetsHaltedAndNothingElse : Prop :=
  (∀ w : Word, opcodeField w = 15#4 → decode w = .ok .halt) ∧
  ∀ s : State, ∃ t, exec .halt s = .next t ∧ t.halted = true ∧ (∀ r, t.readReg r = s.readReg r) ∧
    t.imem = s.imem ∧ (∀ a, Memory.read t.dmem a = Memory.read s.dmem a) ∧ t.pipe = s.pipe

/-- A halted machine changes nothing, for any number of steps or clock cycles. That only reset clears `halted` is the
spec's decision D15 (R29, log entry 11). -/
def Obligations.HaltedMachineChangesNothing : Prop :=
  ∀ (n : Nat) (s : State), s.halted = true → runSteps n s = .next s ∧ runCycles n s = .next s

/-- HALT is the only end of a run: a running machine is halted after a step exactly when the step ran a HALT, and in
any run that ends halted there is a step that did, after which nothing but `halted` differs; the pc is left unsaid (R29,
D15, D22, log entry 11). -/
def Obligations.OnlyHaltEndsARun : Prop :=
  (∀ s t : State, s.halted = false → step s = .next t → (t.halted = true ↔ s.fetch = .ok .halt)) ∧
  (∀ (n : Nat) (s t : State), s.halted = false → runSteps n s = .next t → t.halted = true →
    ∃ k u, k < n ∧ runSteps k s = .next u ∧ u.halted = false ∧ u.fetch = .ok .halt ∧ t.regs = u.regs ∧
      t.imem = u.imem ∧ t.dmem = u.dmem ∧ t.pipe = u.pipe)

/-! ## Memories -/

/-- Stores are never seen by later fetches: after any number of steps, and after any number of clock cycles, the word
fetched at every address is the original one (R51). -/
def Obligations.StoresNeverReachInstructionFetch : Prop :=
  (∀ (n : Nat) (s t : State) (a : Word), runSteps n s = .next t → t.imem = s.imem ∧ t.ifetch a = s.ifetch a) ∧
  (∀ (n : Nat) (s t : State) (a : Word), runCycles n s = .next t → t.imem = s.imem ∧ t.ifetch a = s.ifetch a)

/-- Program order: after `n` steps every data-memory word is the one stored last to its address by a SW of the run,
or what it was at the start. That stores take effect in program order is the spec's decision D13 (R49, log entry 6). -/
def Obligations.EveryWordIsTheLatestStoreOrTheImage : Prop :=
  ∀ (n : Nat) (s t : State), s.dmem.wf = true → runSteps n s = .next t →
    ∀ a, Memory.read t.dmem a = lastStored a (Memory.read s.dmem a) (storesOf n s)

/-- Two canonical memories that read the same at every address of the space are the same list (log entry 1). -/
def Obligations.CanonicalMemoriesWithEqualReadsAreEqual : Prop :=
  ∀ m m' : Memory, m.wf = true → m'.wf = true →
    (∀ a, a < 2 ^ 24 → Memory.read m a = Memory.read m' a) → m = m'

/-- The image of a program that fits: word `i` at address `i`, every other address as in the rest, in canonical form.
The load address is the spec's decision D5 (R47, log entry 13). -/
def Obligations.ProgramImageHoldsWordIAtAddressI : Prop :=
  ∀ (ws : List Word) (rest : Memory), rest.wf = true → ws.length ≤ 2 ^ 24 →
    (programImage ws rest).wf = true ∧
    (∀ a, a < 2 ^ 24 → Memory.read (programImage ws rest) a = ws.getD a (Memory.read rest a))

/-! ## Reset and invariants -/

/-- The launch state: register 0 zero, the others as given, the pc 0, running, the image in both memories, empty
buffers; and State.reset is the launch state of zero registers and an empty image. The values are the spec's decisions
D3, D4, D5, D21 and this model's log entries 2, 3 and 13 (R33, R167). -/
def Obligations.LaunchStateIsTheResetTable : Prop :=
  (∀ (init : RegFile) (image : Memory), ∀ s, s = State.launch init image →
    s.readReg 0 = 0#32 ∧ (∀ r : RegNum, r ≠ 0 → s.readReg r = init[r.val]) ∧ s.pc = 0#32 ∧ s.halted = false ∧
    s.imem = image ∧ s.dmem = image ∧ s.pipe = ⟨.noop, .noop, .noop, .noop, false⟩) ∧
  State.reset = State.launch (Vector.replicate 16 0#32) []

/-- The invariant holds at reset and at every launch with a canonical image. -/
def Obligations.ResetAndLaunchMeetTheInvariant : Prop :=
  State.reset.Inv ∧ ∀ (init : RegFile) (image : Memory), image.wf = true → (State.launch init image).Inv

/-- Every step keeps the invariant: slot 0 of the register file stays zero (R21) and both memories stay in canonical
form, from any state that meets it. -/
def Obligations.StepKeepsTheInvariant : Prop :=
  ∀ s t : State, s.Inv → step s = .next t → t.Inv

/-- Every clock cycle of the pipeline keeps the same invariant. -/
def Obligations.CycleKeepsTheInvariant : Prop :=
  ∀ s t : State, s.Inv → cycle s = .next t → t.Inv

/-! ## The pipeline -/

/-- Forwarding: unless it stalls, a source register in ID/RR has the value written by the nearest older instruction in
flight, or the register file's if there is none (R150, R153, R155). The priority is the spec's decision D18. -/
def Obligations.ForwardingDeliversTheNewestValue : Prop :=
  ∀ (s : State) (r : RegNum), s.operandStalls r = false → s.operand r = RegFile.read (regsAfterOlder s) r

/-- Register 0 takes no part in forwarding or stalling: as a source it is 0 and never stalls, and an instruction in
EX, MEM or WB with destination 0 gives no register a value and stalls none (R157). -/
def Obligations.ZeroRegisterIsNeverForwardedNorStalledOn : Prop :=
  (∀ s : State, s.operand 0 = 0#32 ∧ s.operandStalls 0 = false) ∧
  (∀ (s : State) (r : RegNum), s.pipe.de.dst = 0 →
    s.operandStalls r = false ∧
    s.operand r = State.operand { s with pipe := { s.pipe with de := { s.pipe.de with wr := false } } } r) ∧
  (∀ (s : State) (r : RegNum), s.pipe.em.dst = 0 →
    s.operand r = State.operand { s with pipe := { s.pipe with em := { s.pipe.em with wr := false } } } r) ∧
  (∀ (s : State) (r : RegNum), s.pipe.mw.dst = 0 →
    s.operand r = State.operand { s with pipe := { s.pipe with mw := { s.pipe.mw with wr := false } } } r)

/-- The load-use stall, and the only stall: the instruction in ID/RR waits exactly when the one in EX is a LW whose DR
is not 0 and is a source register of it; behind a bubble or a word that is no instruction, and when it is itself such a
word, it never waits (R154, R156). That a reserved word in FD never waits is the model's choice where the word is a SKP
of a reserved mode (log entry 14). -/
def Obligations.StallsExactlyOnLoadUse : Prop :=
  (∀ (s : State) (insn npc : Word) (value : Option RegNum → Word) (i j : Instr),
    s.pipe.de = decodeBuffer insn npc value → decode insn = .ok i → decode s.pipe.fd.insn = .ok j →
    (s.idStalls = true ↔
      ∃ dr base off, i = .lw dr base off ∧ dr ≠ 0 ∧ (j.srcA = some dr ∨ j.srcB = some dr))) ∧
  (∀ s : State, s.pipe.de = .noop → s.idStalls = false) ∧
  (∀ (s : State) (r : Reject), s.pipe.de.op = .reserved r → s.idStalls = false) ∧
  (∀ (s : State) (r : Reject), decode s.pipe.fd.insn = .error r → s.idStalls = false)

/-- A stall cycle: the pc and FD hold, EX, MEM and WB go on (R151), DE receives a NOOP (R152), and the stall is over
(R156, which the spec derives). That a HALT in WB sets `halted` is the spec's decision D19 (log entry 14). -/
def Obligations.StallCycleHoldsFetchAndSendsANoop : Prop :=
  ∀ s : State, s.halted = false → s.pipe.draining = false → s.idStalls = true →
    ∃ t, cycle s = .next t ∧ t.pc = s.pc ∧ t.pipe.fd = s.pipe.fd ∧ t.pipe.de = .noop ∧
      t.pipe.em = s.pipe.de.execute ∧ t.pipe.mw = ⟨s.pipe.em.op, s.pipe.em.dst, s.pipe.em.wr, s.memValue⟩ ∧
      t.regs = s.wbRegs ∧ t.dmem = s.memDmem ∧ t.halted = decide (s.pipe.mw.op = .halt) ∧ t.idStalls = false

/-- A taken branch in EX: the next fetch is from its target and FD and DE receive NOOPs, also when the instruction in
ID/RR would stall (R161 to R164); the target is the one of R161. Where AT = RA, not register 0, it is that of the note
on JALR behind the listing of R166, the spec's decision D11 (log entry 10). The 32-bit target sums and JALR's 32-bit
target are D1 and D2 (log entry 4). That a taken SKP cancels the word at its address + 2 too, which R162 lets an
implementation keep, is the reference of R166 (log entry 14). -/
def Obligations.TakenBranchCancelsTheTwoYoungerInstructions : Prop :=
  ∀ s : State, s.halted = false → s.pipe.draining = false → s.pipe.de.taken = true →
    ∃ t, cycle s = .next t ∧ t.pipe.fd = .noop ∧ t.pipe.de = .noop ∧ t.pipe.draining = false ∧
      t.pipe.em = s.pipe.de.execute ∧
      ((s.pipe.de.op = .goto ∧ t.pc = s.pipe.de.npc + s.pipe.de.imm) ∨
       (s.pipe.de.op = .skpe ∧ s.pipe.de.a = s.pipe.de.b ∧ t.pc = s.pipe.de.npc + 1#32) ∨
       (s.pipe.de.op = .skpgt ∧ s.pipe.de.b.toInt < s.pipe.de.a.toInt ∧ t.pc = s.pipe.de.npc + 1#32) ∨
       (s.pipe.de.op = .jalr ∧
        t.pc = if s.pipe.de.srcA = s.pipe.de.dst ∧ s.pipe.de.dst ≠ 0 then s.pipe.de.npc else s.pipe.de.a))

/-- A flushed instruction has no effect: behind a taken branch, and behind a HALT, neither the word in ID/RR nor the
word being fetched makes any difference to the cycle (R163, R166). Where the pipeline acts on HALT, and so the two HALT
cases, is the spec's decision D19 (log entry 14). That the word being fetched behind a taken SKP is cancelled too,
which R162 lets an implementation keep, is the reference of R166 (log entry 14). -/
def Obligations.FlushedWordsHaveNoEffect : Prop :=
  ∀ (s t : State) (fd : FetchBuffer) (m : Memory), s.halted = false →
    s.pipe.de.taken = true ∨ s.pipe.de.op = .halt ∨ s.pipe.draining = true → cycle s = .next t →
    cycle (withImem (withFd s fd) m) = .next (withImem t m)

/-- HALT in EX: the pipeline drains from then on. FD and DE receive NOOPs, the fetch pc holds and EX, MEM and WB go on;
`draining` becomes true by a HALT in EX and by nothing else, no later cycle clears it, and it is false at reset (R166,
R167). Where the pipeline acts on HALT is the spec's decision D19, the reset value is D21 (log entry 14). -/
def Obligations.HaltInExDrainsThePipeline : Prop :=
  (∀ s : State, s.halted = false → s.pipe.de.op = .halt ∨ s.pipe.draining = true →
    (∀ r, s.pipe.de.op ≠ .reserved r) →
    ∃ t, cycle s = .next t ∧ t.pipe.draining = true ∧ t.pipe.fd = .noop ∧ t.pipe.de = .noop ∧ t.pc = s.pc ∧
      t.pipe.em = s.pipe.de.execute ∧ t.pipe.mw = ⟨s.pipe.em.op, s.pipe.em.dst, s.pipe.em.wr, s.memValue⟩ ∧
      t.regs = s.wbRegs ∧ t.dmem = s.memDmem) ∧
  (∀ s t : State, s.pipe.draining = false → cycle s = .next t → t.pipe.draining = true →
    s.halted = false ∧ s.pipe.de.op = .halt) ∧
  (∀ (n : Nat) (s t : State), s.pipe.draining = true → runCycles n s = .next t → t.pipe.draining = true) ∧
  State.reset.pipe.draining = false

/-- The register file changes at one point only: the WB stage of an instruction that writes a register, with
destination not 0 (R158). -/
def Obligations.RegisterFileIsWrittenInWbOnly : Prop :=
  ∀ (s t : State) (r : RegNum), s.halted = false → cycle s = .next t →
    t.readReg r = if s.pipe.mw.wr = true ∧ s.pipe.mw.dst = r ∧ r ≠ 0 then s.pipe.mw.val else s.readReg r

/-- Data memory is written in MEM only, by a SW, at the address and with the word it carries; and the machine halts in
the cycle in which a HALT is in WB and in no other (R144, R114). Where the pipeline acts on HALT is the spec's
decision D19. -/
def Obligations.StoresHappenInMemAndHaltsInWb : Prop :=
  ∀ s t : State, s.halted = false → s.dmem.wf = true → cycle s = .next t →
    (∀ a, Memory.read t.dmem a =
      if s.pipe.em.op = .sw ∧ a = s.pipe.em.val.toNat % 2 ^ 24 then s.pipe.em.sdata else Memory.read s.dmem a) ∧
    (t.halted = true ↔ s.pipe.mw.op = .halt)

/-- From an empty pipeline the first four cycles write no register. The empty buffers are the spec's decision D21
(R167). -/
def Obligations.FirstFourCyclesWriteNoRegister : Prop :=
  ∀ (n : Nat) (s t : State), n ≤ 4 → s.pipe = Pipeline.empty → runCycles n s = .next t → t.regs = s.regs

/-- The pipeline computes what the sequential machine computes. From any state with an empty pipeline, when the
sequential run halts, the pipeline halts too, after exactly `N + 4 + L + 2 * T` clock cycles and not before, with the
same registers and memories (R3, R166, R170). The cycle count is a fact of the reference of R166 only (R170, log entry
14), with HALT as in the spec's decision D19; agreement for JALR with AT = RA, which R166 leaves out of its claim,
rests on D11 (log entry 10). -/
def Obligations.PipelineMatchesTheSequentialRun : Prop :=
  ∀ (n : Nat) (s t : State), s.pipe = Pipeline.empty → s.halted = false → HaltsWithin n s t →
    (∃ u, runCycles (tally n s).cycles s = .next u ∧ SameResults t u) ∧
    (∀ k, k < (tally n s).cycles → ∃ v, runCycles k s = .next v ∧ v.halted = false)

/-- Where the sequential run stops on a reserved word, the pipeline stops with the same fault or refusal: an outcome of
R121 is raised for an instruction on the correct path (R121, R166). In the terms of the spec's decisions: the outcomes
are the decisions D8, D9 and D10 (log entries 7, 8, 12), the pipeline is the reference of R166 (log entry 14), with
HALT as in D19, and agreement for JALR with AT = RA, which R166 leaves out of its claim, rests on D11 (log entry
10). -/
def Obligations.PipelineStopsWhereTheSequentialRunStops : Prop :=
  ∀ (n : Nat) (s : State), s.pipe = Pipeline.empty → s.halted = false →
    (∀ f, runSteps n s = .fault f → ∃ k, runCycles k s = .fault f) ∧
    (∀ r, runSteps n s = .refused r → ∃ k, runCycles k s = .refused r)

/-- The converse, for the runs that end: when the pipeline halts, or stops on a word, so does the sequential run, with
the same results; a word that was fetched and flushed never ends a run (R3, R114, R121). Runs that go on are the
subject of PipelinePassesThroughTheSequentialStates. In the terms of the spec's decisions: the outcomes are the
decisions D8, D9 and D10 (log entries 7, 8, 12), the pipeline is the reference of R166 (log entry 14), with HALT as in
D19, and agreement for JALR with AT = RA, which R166 leaves out of its claim, rests on D11 (log entry 10). -/
def Obligations.PipelineEndsOnlyWhereTheSequentialRunEnds : Prop :=
  ∀ (k : Nat) (s : State), s.pipe = Pipeline.empty → s.halted = false →
    (∀ u, runCycles k s = .next u → u.halted = true → ∃ n t, HaltsWithin n s t ∧ SameResults t u) ∧
    (∀ f, runCycles k s = .fault f → ∃ n, runSteps n s = .fault f) ∧
    (∀ r, runCycles k s = .refused r → ∃ n, runSteps n s = .refused r)

/-- Also in a run that never ends, the pipeline shows only what the sequential machine computes. After any number of
clock cycles the data memory, and the stores made so far in their order, are those after some number of instructions,
and the registers those after no more; and every sequential state that two more instructions follow is reached, in the
data memory and, one cycle later, in the registers (R3, R49, R166). The pipeline is the reference of R166 (log entry
14), and program order is the spec's decision D13 (log entry 6). Where the pipeline acts on HALT is D19, and agreement
for JALR with AT = RA, which R166 leaves out of its claim, rests on D11 (log entry 10). -/
def Obligations.PipelinePassesThroughTheSequentialStates : Prop :=
  ∀ s : State, s.pipe = Pipeline.empty → s.halted = false →
    (∀ (k : Nat) (u : State), runCycles k s = .next u → ∃ m n t v, m ≤ n ∧ n ≤ k ∧
      runSteps m s = .next t ∧ u.regs = t.regs ∧
      runSteps n s = .next v ∧ u.dmem = v.dmem ∧ cycleStoresOf k s = storesOf n s) ∧
    (∀ (n : Nat) (t w : State), runSteps n s = .next t → runSteps (n + 2) s = .next w →
      ∃ k u v, runCycles k s = .next u ∧ u.dmem = t.dmem ∧ cycleStoresOf k s = storesOf n s ∧
        runCycles (k + 1) s = .next v ∧ v.regs = t.regs)

/-! ## The assembler's labels and immediates -/

/-- A GOTO assembled at address `a` with a label within reach goes to the label, and a LEA there loads the label's
address; a label out of reach is rejected (R72; the rejection is D20, log entry 15). The 32-bit pc and the wrap of its
sums, on which the target reached and `a + 1` rest, are the spec's decisions D1 and D2 (log entry 4). -/
def Obligations.AssembledLabelsReachTheirAddress : Prop :=
  ∀ (a label : Word) (dr : Nat), dr < 16 →
    (((-524288 : Int) ≤ (label.toNat : Int) - (a.toNat + 1) ∧ (label.toNat : Int) - (a.toNat + 1) ≤ 524287) →
      ∃ g l, Asm.assemble a (.goto label) = some g ∧ Asm.assemble a (.lea dr label) = some l ∧
        ∀ s : State, s.pc = a → SetsPcOnly g s label ∧
          WritesRegister l s (Fin.ofNat 16 dr) label (a + 1#32)) ∧
    (¬((-524288 : Int) ≤ (label.toNat : Int) - (a.toNat + 1) ∧ (label.toNat : Int) - (a.toNat + 1) ≤ 524287) →
      Asm.assemble a (.goto label) = none ∧ Asm.assemble a (.lea dr label) = none)

/-- Immediates are never truncated: an integer outside -524288 to 524287 is rejected, and one inside is the signed
value of its field (R70; the rejection is R74's decision D20, log entry 15). -/
def Obligations.ImmediatesAreNeverTruncated : Prop :=
  ∀ z : Int, match Asm.immediate z with
    | none   => z < -524288 ∨ 524287 < z
    | some v => v.toInt = z
end

