-- ==== Sys2Proof/Laws/Decode.lean ====
section
/-! SUPPORT. The fields of a packed word, what decode answers for each opcode, and what opcode each instruction's word
has (spec/30_encoding.md R61 to R70, R75). -/

namespace Sys2Proof

section Pack
variable (op f27 f23 op' f27' f23' : BitVec 4) (low low' : BitVec 20)

theorem extract_high {v w start len : Nat} (x : BitVec v) (y : BitVec w) (k : Nat) (h : start = w + k) :
    BitVec.extractLsb' start len (x ++ y) = BitVec.extractLsb' k len x := by
  subst h
  rw [BitVec.extractLsb'_append_eq_of_le (by omega)]
  congr 1
  omega

theorem extract_low {v w : Nat} (x : BitVec v) (y : BitVec w) : BitVec.extractLsb' 0 w (x ++ y) = y := by
  rw [BitVec.extractLsb'_append_eq_of_add_le (by omega)]
  simp

@[simp] theorem opcodeField_pack : opcodeField (packWord op f27 f23 low) = op :=
  (extract_high (op ++ f27 ++ f23) low 8 rfl).trans
    ((extract_high (op ++ f27) f23 4 rfl).trans ((extract_high op f27 0 rfl).trans (by simp)))

@[simp] theorem modeField_pack : modeField (packWord op f27 f23 low) = f27 :=
  (extract_high (op ++ f27 ++ f23) low 4 rfl).trans ((extract_high (op ++ f27) f23 0 rfl).trans (extract_low op f27))

@[simp] theorem regField27_pack : regField27 (packWord op f27 f23 low) = f27.toFin :=
  congrArg BitVec.toFin (modeField_pack op f27 f23 low)

@[simp] theorem regField23_pack : regField23 (packWord op f27 f23 low) = f23.toFin :=
  congrArg BitVec.toFin ((extract_high (op ++ f27 ++ f23) low 0 rfl).trans (extract_low (op ++ f27) f23))

@[simp] theorem immField_pack : immField (packWord op f27 f23 low) = low := extract_low (op ++ f27 ++ f23) low

@[simp] theorem regField3_pack (r : RegNum) : regField3 (packWord op f27 f23 (lowReg r)) = r := by
  have h : (packWord op f27 f23 (lowReg r)).extractLsb' 0 4 = regBits r :=
    calc (packWord op f27 f23 (lowReg r)).extractLsb' 0 4
        = (lowReg r).extractLsb' 0 4 := BitVec.extractLsb'_append_eq_of_add_le (by decide)
      _ = regBits r := extract_low 0#16 (regBits r)
  exact congrArg BitVec.toFin h

@[simp] theorem regBits_toFin (r : RegNum) : (regBits r).toFin = r := rfl

theorem pack_and : packWord op f27 f23 low &&& packWord op' f27' f23' low' =
    packWord (op &&& op') (f27 &&& f27') (f23 &&& f23') (low &&& low') :=
  BitVec.and_append.trans (by rw [BitVec.and_append, BitVec.and_append]; rfl)

theorem toNat_pack : (packWord op f27 f23 low).toNat =
    op.toNat * 2 ^ 28 + f27.toNat * 2 ^ 24 + f23.toNat * 2 ^ 20 + low.toNat := by
  have glue : ∀ x y k : Nat, y < 2 ^ k → x <<< k ||| y = x * 2 ^ k + y := fun x y k h => by
    rw [← Nat.shiftLeft_add_eq_or_of_lt h, Nat.shiftLeft_eq]
  have h : (packWord op f27 f23 low).toNat = (((op.toNat <<< 4 ||| f27.toNat) <<< 4 ||| f23.toNat) <<< 20 ||| low.toNat) :=
    (BitVec.toNat_append (op ++ f27 ++ f23) low).trans (by rw [BitVec.toNat_append, BitVec.toNat_append])
  rw [h, glue _ _ 20 low.isLt, glue _ _ 4 f23.isLt, glue _ _ 4 f27.isLt]
  ring

end Pack

/-- A word is what its four fields make of it. -/
theorem pack_fields (w : Word) :
    packWord (opcodeField w) (modeField w) (w.extractLsb' 20 4) (immField w) = w := by
  apply BitVec.eq_of_toNat_eq
  rw [toNat_pack]
  simp only [opcodeField, modeField, immField, BitVec.extractLsb'_toNat, Nat.shiftRight_eq_div_pow]
  have := w.isLt
  omega

/-- The opcode a constructor is encoded with (R61). -/
theorem opcodeField_encode (i : Instr) : (opcodeField (encode i)).toNat =
    match i with
    | .add _ _ _ => 0 | .addi _ _ _ => 1 | .nand _ _ _ => 2 | .skpe _ _ => 3 | .skpgt _ _ => 3 | .goto _ => 4
    | .lea _ _ => 5 | .lw _ _ _ => 8 | .sw _ _ _ => 9 | .jalr _ _ => 12 | .halt => 15 := by
  cases i <;> simp [encode]

/-- Under the setting this model runs with, unused bits are ignored (D7). -/
@[simp] theorem acceptUnused_options (w u : Word) (i : Instr) : acceptUnused Config.options w u i = .ok i := rfl

/-- Under the setting this model runs with, JALR with AT = RA is a JALR (D11). -/
@[simp] theorem decodeJalr_options (w : Word) :
    decodeJalr Config.options w = .ok (.jalr (regField27 w) (regField23 w)) := rfl

section Opcodes
variable {w : Word}

theorem decode_add (h : opcodeField w = 0#4) :
    decode w = .ok (.add (regField27 w) (regField23 w) (regField3 w)) := by simp [decode, decodeWith, h]

theorem decode_addi (h : opcodeField w = 1#4) :
    decode w = .ok (.addi (regField27 w) (regField23 w) (immField w)) := by simp [decode, decodeWith, h]

theorem decode_nand (h : opcodeField w = 2#4) :
    decode w = .ok (.nand (regField27 w) (regField23 w) (regField3 w)) := by simp [decode, decodeWith, h]

theorem decode_skpe (h : opcodeField w = 3#4) (hm : modeField w = 0#4) :
    decode w = .ok (.skpe (regField23 w) (regField3 w)) := by simp [decode, decodeWith, decodeSkp, h, hm]

theorem decode_skpgt (h : opcodeField w = 3#4) (hm : modeField w = 1#4) :
    decode w = .ok (.skpgt (regField23 w) (regField3 w)) := by simp [decode, decodeWith, decodeSkp, h, hm]

theorem decode_goto (h : opcodeField w = 4#4) (hm : modeField w = 0#4) :
    decode w = .ok (.goto (immField w)) := by simp [decode, decodeWith, decodeGoto, h, hm]

theorem decode_lea (h : opcodeField w = 5#4) :
    decode w = .ok (.lea (regField27 w) (immField w)) := by simp [decode, decodeWith, h]

theorem decode_lw (h : opcodeField w = 8#4) :
    decode w = .ok (.lw (regField27 w) (regField23 w) (immField w)) := by simp [decode, decodeWith, h]

theorem decode_sw (h : opcodeField w = 9#4) :
    decode w = .ok (.sw (regField27 w) (regField23 w) (immField w)) := by simp [decode, decodeWith, h]

theorem decode_jalr (h : opcodeField w = 12#4) :
    decode w = .ok (.jalr (regField27 w) (regField23 w)) := by simp [decode, decodeWith, h]

theorem decode_halt (h : opcodeField w = 15#4) : decode w = .ok .halt := by simp [decode, decodeWith, h]

end Opcodes

/-- A four-bit field has one of sixteen values. -/
theorem field_cases (x : BitVec 4) :
    x = 0#4 ∨ x = 1#4 ∨ x = 2#4 ∨ x = 3#4 ∨ x = 4#4 ∨ x = 5#4 ∨ x = 6#4 ∨ x = 7#4 ∨ x = 8#4 ∨ x = 9#4 ∨ x = 10#4 ∨
      x = 11#4 ∨ x = 12#4 ∨ x = 13#4 ∨ x = 14#4 ∨ x = 15#4 := by
  revert x
  decide

/-- Everything decode can accept: one case per row of the opcode table (R75). -/
theorem decode_ok_cases {w : Word} {i : Instr} (h : decode w = .ok i) :
    (opcodeField w = 0#4 ∧ i = .add (regField27 w) (regField23 w) (regField3 w)) ∨
    (opcodeField w = 1#4 ∧ i = .addi (regField27 w) (regField23 w) (immField w)) ∨
    (opcodeField w = 2#4 ∧ i = .nand (regField27 w) (regField23 w) (regField3 w)) ∨
    (opcodeField w = 3#4 ∧ modeField w = 0#4 ∧ i = .skpe (regField23 w) (regField3 w)) ∨
    (opcodeField w = 3#4 ∧ modeField w = 1#4 ∧ i = .skpgt (regField23 w) (regField3 w)) ∨
    (opcodeField w = 4#4 ∧ modeField w = 0#4 ∧ i = .goto (immField w)) ∨
    (opcodeField w = 5#4 ∧ i = .lea (regField27 w) (immField w)) ∨
    (opcodeField w = 8#4 ∧ i = .lw (regField27 w) (regField23 w) (immField w)) ∨
    (opcodeField w = 9#4 ∧ i = .sw (regField27 w) (regField23 w) (immField w)) ∨
    (opcodeField w = 12#4 ∧ i = .jalr (regField27 w) (regField23 w)) ∨
    (opcodeField w = 15#4 ∧ i = .halt) := by
  rcases field_cases (opcodeField w) with
    ho | ho | ho | ho | ho | ho | ho | ho | ho | ho | ho | ho | ho | ho | ho | ho
  case inr.inr.inr.inl =>
    rcases field_cases (modeField w) with
      hm | hm | hm | hm | hm | hm | hm | hm | hm | hm | hm | hm | hm | hm | hm | hm <;>
      simp [decode, decodeWith, decodeSkp, acceptUnused, ho, hm, Config.options] at h <;> simp [ho, hm, h]
  case inr.inr.inr.inr.inl =>
    rcases field_cases (modeField w) with
      hm | hm | hm | hm | hm | hm | hm | hm | hm | hm | hm | hm | hm | hm | hm | hm <;>
      simp [decode, decodeWith, decodeGoto, acceptUnused, ho, hm, Config.options] at h
    simp [ho, hm, h]
  all_goals (simp [decode, decodeWith, ho] at h; try simp [ho, h])

/-- The checks of wellFormed hold of every value of Instr: its fields' types keep both ranges (R20, R70). -/
theorem Instr.wellFormed_all (i : Instr) : i.wellFormed = true := by
  have hr : ∀ r : RegNum, regNumberOk r = true := by decide
  have hm : ∀ v : Imm20, immediateOk v.toInt = true := fun v => by
    have h1 := v.le_toInt (w := 20)
    have h2 := v.toInt_lt (w := 20)
    simp only [immediateOk, decide_eq_true_eq]
    omega
  cases i <;> simp [Instr.wellFormed, hr, hm]

end Sys2Proof
end

