-- ==== Sys2Proof/Laws/State.lean ====
section
/-! SUPPORT. One lemma per field per update of State, and the laws of the register file. -/

namespace Sys2Proof.Machine

/-! The register file (spec/10_state.md R21). -/

@[simp] theorem RegFile.read_zero (f : RegFile) : RegFile.read f 0 = 0#32 := by simp [RegFile.read]

@[simp] theorem RegFile.write_zero (f : RegFile) (v : Word) : RegFile.write f 0 v = f := by simp [RegFile.write]

theorem RegFile.read_write_same (f : RegFile) {r : RegNum} (h : r ≠ 0) (v : Word) :
    RegFile.read (RegFile.write f r v) r = v := by
  simp [RegFile.read, RegFile.write, h]

theorem RegFile.read_write_ne (f : RegFile) {r q : RegNum} (h : q ≠ r) (v : Word) :
    RegFile.read (RegFile.write f r v) q = RegFile.read f q := by
  have hv : r.val ≠ q.val := fun e => h (Fin.ext e.symm)
  by_cases hr : r = 0
  · simp [RegFile.write, hr]
  · simp [RegFile.read, RegFile.write, hr, Vector.getElem_set_ne, hv]

/-- Everything a register write does to a read. -/
theorem RegFile.read_write (f : RegFile) (r q : RegNum) (v : Word) :
    RegFile.read (RegFile.write f r v) q = if q = r ∧ r ≠ 0 then v else RegFile.read f q := by
  by_cases hq : q = r
  · subst hq
    by_cases h0 : q = 0
    · simp [h0]
    · simp [h0, RegFile.read_write_same]
  · simp [hq, RegFile.read_write_ne]

theorem RegFile.write_write_same (f : RegFile) (r : RegNum) (v w : Word) :
    RegFile.write (RegFile.write f r v) r w = RegFile.write f r w := by
  by_cases hr : r = 0 <;> simp [RegFile.write, hr]

theorem RegFile.write_comm (f : RegFile) {r q : RegNum} (h : r ≠ q) (v w : Word) :
    RegFile.write (RegFile.write f r v) q w = RegFile.write (RegFile.write f q w) r v := by
  have hv : r.val ≠ q.val := fun e => h (Fin.ext e)
  by_cases hr : r = 0
  · simp [RegFile.write, hr]
  · by_cases hq : q = 0
    · simp [RegFile.write, hq]
    · simp only [RegFile.write, hr, hq, if_false]
      exact Vector.set_comm _ _ hv

/-- A register write leaves slot 0 alone. -/
@[simp] theorem RegFile.write_slot0 (f : RegFile) (r : RegNum) (v : Word) : (RegFile.write f r v)[0] = f[0] := by
  by_cases hr : r = 0
  · simp [RegFile.write, hr]
  · have : r.val ≠ 0 := fun e => hr (Fin.ext e)
    simp [RegFile.write, hr, Vector.getElem_set_ne, this]

/-! Updates of State, field by field. -/

section Fields
variable (s : State) (r q : RegNum) (v t a : Word)

@[simp] theorem State.setPc_pc : (s.setPc t).pc = t := rfl
@[simp] theorem State.setPc_regs : (s.setPc t).regs = s.regs := rfl
@[simp] theorem State.setPc_halted : (s.setPc t).halted = s.halted := rfl
@[simp] theorem State.setPc_imem : (s.setPc t).imem = s.imem := rfl
@[simp] theorem State.setPc_dmem : (s.setPc t).dmem = s.dmem := rfl
@[simp] theorem State.setPc_pipe : (s.setPc t).pipe = s.pipe := rfl
@[simp] theorem State.setPc_readReg : (s.setPc t).readReg r = s.readReg r := rfl

@[simp] theorem State.advance_pc : s.advance.pc = s.pc + 1#32 := rfl
@[simp] theorem State.advance_regs : s.advance.regs = s.regs := rfl
@[simp] theorem State.advance_halted : s.advance.halted = s.halted := rfl
@[simp] theorem State.advance_imem : s.advance.imem = s.imem := rfl
@[simp] theorem State.advance_dmem : s.advance.dmem = s.dmem := rfl
@[simp] theorem State.advance_pipe : s.advance.pipe = s.pipe := rfl
@[simp] theorem State.advance_readReg : s.advance.readReg r = s.readReg r := rfl

@[simp] theorem State.writeReg_pc : (s.writeReg r v).pc = s.pc := rfl
@[simp] theorem State.writeReg_regs : (s.writeReg r v).regs = RegFile.write s.regs r v := rfl
@[simp] theorem State.writeReg_halted : (s.writeReg r v).halted = s.halted := rfl
@[simp] theorem State.writeReg_imem : (s.writeReg r v).imem = s.imem := rfl
@[simp] theorem State.writeReg_dmem : (s.writeReg r v).dmem = s.dmem := rfl
@[simp] theorem State.writeReg_pipe : (s.writeReg r v).pipe = s.pipe := rfl
@[simp] theorem State.writeReg_zero : s.writeReg 0 v = s := by simp [State.writeReg]

theorem State.readReg_writeReg : (s.writeReg r v).readReg q = if q = r ∧ r ≠ 0 then v else s.readReg q :=
  RegFile.read_write s.regs r q v

@[simp] theorem State.readReg_zero : s.readReg 0 = 0#32 := RegFile.read_zero s.regs

@[simp] theorem State.memWrite_pc : (s.memWrite a v).pc = s.pc := rfl
@[simp] theorem State.memWrite_regs : (s.memWrite a v).regs = s.regs := rfl
@[simp] theorem State.memWrite_halted : (s.memWrite a v).halted = s.halted := rfl
@[simp] theorem State.memWrite_imem : (s.memWrite a v).imem = s.imem := rfl
@[simp] theorem State.memWrite_dmem : (s.memWrite a v).dmem = Memory.write s.dmem (memIndex a) v := rfl
@[simp] theorem State.memWrite_pipe : (s.memWrite a v).pipe = s.pipe := rfl
@[simp] theorem State.memWrite_readReg : (s.memWrite a v).readReg r = s.readReg r := rfl

@[simp] theorem State.halt_pc : s.halt.pc = s.pc := rfl
@[simp] theorem State.halt_regs : s.halt.regs = s.regs := rfl
@[simp] theorem State.halt_halted : s.halt.halted = true := rfl
@[simp] theorem State.halt_imem : s.halt.imem = s.imem := rfl
@[simp] theorem State.halt_dmem : s.halt.dmem = s.dmem := rfl
@[simp] theorem State.halt_pipe : s.halt.pipe = s.pipe := rfl

@[simp] theorem State.placeWord_pc : (s.placeWord v).pc = s.pc := rfl
@[simp] theorem State.placeWord_regs : (s.placeWord v).regs = s.regs := rfl
@[simp] theorem State.placeWord_halted : (s.placeWord v).halted = false := rfl
@[simp] theorem State.placeWord_imem : (s.placeWord v).imem = Memory.write s.imem (memIndex s.pc) v := rfl
@[simp] theorem State.placeWord_dmem : (s.placeWord v).dmem = s.dmem := rfl
@[simp] theorem State.placeWord_pipe : (s.placeWord v).pipe = s.pipe := rfl

/-- Everything a SKP does to the pc. -/
theorem State.skip_eq (b : Bool) : s.skip b = s.setPc (if b then s.pc + 2#32 else s.pc + 1#32) := by
  cases b <;> simp [State.skip, State.setPc, State.advance, State.npc, BitVec.add_assoc]

end Fields

end Sys2Proof.Machine
end

