-- ==== Sys2Proof/Laws/Memory.lean ====
section
/-! SUPPORT. The laws of Memory.read, Memory.write and Memory.load: read after write, and that the canonical form is
kept (spec/20_memory.md R42). -/

namespace Sys2Proof.Machine

/-- The index of an address is below 2^24 (R41). -/
theorem memIndex_lt (a : Word) : memIndex a < Config.memWords := (a.extractLsb' 0 24).isLt

theorem memIndex_eq_mod (a : Word) : memIndex a = a.toNat % 2 ^ 24 := by simp [memIndex]

theorem Memory.wfFrom_cons {lo k : Nat} {v : Word} {m : Memory} :
    Memory.wfFrom lo ((k, v) :: m) = true ↔
      lo ≤ k ∧ k < Config.memWords ∧ v ≠ Config.unlistedWord ∧ Memory.wfFrom (k + 1) m = true := by
  simp [Memory.wfFrom, and_assoc]

theorem Memory.wfFrom_mono {lo lo' : Nat} (h : lo' ≤ lo) {m : Memory} (hm : Memory.wfFrom lo m = true) :
    Memory.wfFrom lo' m = true := by
  cases m with
  | nil => rfl
  | cons e m =>
    obtain ⟨k, v⟩ := e
    rw [Memory.wfFrom_cons] at hm ⊢
    exact ⟨h.trans hm.1, hm.2⟩

/-- Below its first key a canonical memory reads as unlisted. -/
theorem Memory.read_below {lo a : Nat} {m : Memory} (hm : Memory.wfFrom lo m = true) (ha : a < lo) :
    Memory.read m a = Config.unlistedWord := by
  induction m generalizing lo with
  | nil => rfl
  | cons e m ih =>
    obtain ⟨k, v⟩ := e
    rw [Memory.wfFrom_cons] at hm
    have hk : k ≠ a := by omega
    simp only [Memory.read, hk, if_false]
    exact ih hm.2.2.2 (by omega)

/-! Memory.write on a nonempty list, case by case. -/

section Cases
variable (m : Memory) {k a : Nat} (w v : Word)

theorem Memory.write_past (h : k < a) : Memory.write ((k, w) :: m) a v = (k, w) :: Memory.write m a v := by
  simp [Memory.write, h]

theorem Memory.write_erase (hv : v = Config.unlistedWord) : Memory.write ((k, w) :: m) k v = m := by
  simp [Memory.write, hv]

theorem Memory.write_keep (h : a < k) (hv : v = Config.unlistedWord) :
    Memory.write ((k, w) :: m) a v = (k, w) :: m := by
  have h1 : ¬ k < a := by omega
  have h2 : k ≠ a := by omega
  simp [Memory.write, h1, h2, hv]

theorem Memory.write_replace (hv : v ≠ Config.unlistedWord) : Memory.write ((k, w) :: m) k v = (k, v) :: m := by
  simp [Memory.write, hv]

theorem Memory.write_insert (h : a < k) (hv : v ≠ Config.unlistedWord) :
    Memory.write ((k, w) :: m) a v = (a, v) :: (k, w) :: m := by
  have h1 : ¬ k < a := by omega
  have h2 : k ≠ a := by omega
  simp [Memory.write, h1, h2, hv]

@[simp] theorem Memory.read_cons (b : Nat) :
    Memory.read ((k, w) :: m) b = if k = b then w else Memory.read m b := rfl

end Cases

/-- A write leaves every other address alone, in any memory. -/
theorem Memory.read_write_ne (m : Memory) {a b : Nat} (h : b ≠ a) (v : Word) :
    Memory.read (Memory.write m a v) b = Memory.read m b := by
  have hab : a ≠ b := Ne.symm h
  induction m with
  | nil => by_cases hv : v = Config.unlistedWord <;> simp [Memory.write, Memory.read, hv, hab]
  | cons e m ih =>
    obtain ⟨k, w⟩ := e
    obtain hk | rfl | hk := Nat.lt_trichotomy k a
    · rw [Memory.write_past m w v hk, Memory.read_cons, Memory.read_cons, ih]
    · by_cases hv : v = Config.unlistedWord
      · rw [Memory.write_erase m w v hv, Memory.read_cons, if_neg hab]
      · rw [Memory.write_replace m w v hv, Memory.read_cons, Memory.read_cons, if_neg hab, if_neg hab]
    · by_cases hv : v = Config.unlistedWord
      · rw [Memory.write_keep m w v hk hv]
      · rw [Memory.write_insert m w v hk hv, Memory.read_cons, if_neg hab]

/-- A write gives its value back, in a canonical memory. -/
theorem Memory.read_write_same {lo : Nat} {m : Memory} (hm : Memory.wfFrom lo m = true) (a : Nat) (v : Word) :
    Memory.read (Memory.write m a v) a = v := by
  induction m generalizing lo with
  | nil => by_cases hv : v = Config.unlistedWord <;> simp [Memory.write, Memory.read, hv]
  | cons e m ih =>
    obtain ⟨k, w⟩ := e
    have hc := Memory.wfFrom_cons.mp hm
    obtain hk | rfl | hk := Nat.lt_trichotomy k a
    · rw [Memory.write_past m w v hk, Memory.read_cons, if_neg (by omega), ih hc.2.2.2]
    · by_cases hv : v = Config.unlistedWord
      · rw [Memory.write_erase m w v hv, Memory.read_below hc.2.2.2 (Nat.lt_succ_self k), hv]
      · rw [Memory.write_replace m w v hv, Memory.read_cons, if_pos rfl]
    · by_cases hv : v = Config.unlistedWord
      · rw [Memory.write_keep m w v hk hv, Memory.read_cons, if_neg (by omega),
          Memory.read_below hc.2.2.2 (by omega), hv]
      · rw [Memory.write_insert m w v hk hv, Memory.read_cons, if_pos rfl]

/-- Everything a word write does to a read of a canonical memory. -/
theorem Memory.read_write {m : Memory} (hm : m.wf = true) (a b : Nat) (v : Word) :
    Memory.read (Memory.write m a v) b = if b = a then v else Memory.read m b := by
  by_cases h : b = a
  · rw [if_pos h, h, Memory.read_write_same hm]
  · rw [if_neg h, Memory.read_write_ne m h]

/-- A write below 2^24 keeps the canonical form. -/
theorem Memory.wfFrom_write {lo : Nat} {m : Memory} (hm : Memory.wfFrom lo m = true) {a : Nat} (hlo : lo ≤ a)
    (ha : a < Config.memWords) (v : Word) : Memory.wfFrom lo (Memory.write m a v) = true := by
  induction m generalizing lo with
  | nil =>
    by_cases hv : v = Config.unlistedWord
    · simp [Memory.write, hv, Memory.wfFrom]
    · simp only [Memory.write, hv, if_false, Memory.wfFrom_cons]
      exact ⟨hlo, ha, hv, rfl⟩
  | cons e m ih =>
    obtain ⟨k, w⟩ := e
    have hc := Memory.wfFrom_cons.mp hm
    obtain hk | rfl | hk := Nat.lt_trichotomy k a
    · rw [Memory.write_past m w v hk, Memory.wfFrom_cons]
      exact ⟨hc.1, hc.2.1, hc.2.2.1, ih hc.2.2.2 (by omega)⟩
    · by_cases hv : v = Config.unlistedWord
      · rw [Memory.write_erase m w v hv]
        exact Memory.wfFrom_mono (by omega) hc.2.2.2
      · rw [Memory.write_replace m w v hv, Memory.wfFrom_cons]
        exact ⟨hc.1, ha, hv, hc.2.2.2⟩
    · by_cases hv : v = Config.unlistedWord
      · rwa [Memory.write_keep m w v hk hv]
      · rw [Memory.write_insert m w v hk hv, Memory.wfFrom_cons, Memory.wfFrom_cons]
        exact ⟨hlo, ha, hv, by omega, hc.2.1, hc.2.2.1, hc.2.2.2⟩

theorem Memory.wf_write {m : Memory} (hm : m.wf = true) {a : Nat} (ha : a < Config.memWords) (v : Word) :
    (m.write a v).wf = true := Memory.wfFrom_write hm (Nat.zero_le a) ha v

/-- A word write of the machine keeps the canonical form: its index is below 2^24. -/
theorem Memory.wf_write_index {m : Memory} (hm : m.wf = true) (a v : Word) : (m.write (memIndex a) v).wf = true :=
  Memory.wf_write hm (memIndex_lt a) v

theorem Memory.wf_load {m : Memory} (hm : m.wf = true) (a : Nat) (ws : List Word) : (m.load a ws).wf = true := by
  induction ws generalizing m a with
  | nil => exact hm
  | cons w ws ih => exact ih (Memory.wf_write hm (Nat.mod_lt _ (by decide)) w) (a + 1)

end Sys2Proof.Machine
end

