-- ==== Sys2Proof/Laws/Exec.lean ====
section
/-! SUPPORT. What exec answers for each instruction, and, once for all, everything an instruction can change. -/

namespace Sys2Proof.Machine

section Equations
variable (s : State) (dr sr1 sr2 sr base tgt link : RegNum) (imm off : Imm20)

theorem exec_add : exec (.add dr sr1 sr2) s = .next (s.writeReg dr (s.readReg sr1 + s.readReg sr2)).advance := rfl
theorem exec_addi : exec (.addi dr sr1 imm) s = .next (s.writeReg dr (s.readReg sr1 + sext32 imm)).advance := rfl
theorem exec_nand :
    exec (.nand dr sr1 sr2) s = .next (s.writeReg dr (~~~(s.readReg sr1 &&& s.readReg sr2))).advance := rfl
theorem exec_skpe : exec (.skpe sr1 sr2) s = .next (s.skip (skpEqual (s.readReg sr1) (s.readReg sr2))) := rfl
theorem exec_skpgt : exec (.skpgt sr1 sr2) s = .next (s.skip (skpGreater (s.readReg sr1) (s.readReg sr2))) := rfl
theorem exec_goto : exec (.goto off) s = .next (s.setPc (s.pcRelative off)) := rfl
theorem exec_lea : exec (.lea dr off) s = .next (s.writeReg dr (s.pcRelative off)).advance := rfl
theorem exec_lw :
    exec (.lw dr base off) s = .next (s.writeReg dr (s.memRead (s.effectiveAddress base off))).advance := rfl
theorem exec_sw :
    exec (.sw sr base off) s = .next (s.memWrite (s.effectiveAddress base off) (s.readReg sr)).advance := rfl
theorem exec_jalr : exec (.jalr tgt link) s = .next (s.jumpAndLink tgt link) := rfl
theorem exec_halt : exec .halt s = .next s.halt := rfl

theorem State.jumpAndLink_regs : (s.jumpAndLink tgt link).regs = RegFile.write s.regs link s.npc := rfl
theorem State.jumpAndLink_imem : (s.jumpAndLink tgt link).imem = s.imem := rfl
theorem State.jumpAndLink_dmem : (s.jumpAndLink tgt link).dmem = s.dmem := rfl
theorem State.jumpAndLink_halted : (s.jumpAndLink tgt link).halted = s.halted := rfl
theorem State.jumpAndLink_pipe : (s.jumpAndLink tgt link).pipe = s.pipe := rfl

/-- JALR's target: the old value of AT, or `pc + 1` when AT and RA name one register, not register 0 (R112). -/
theorem State.jumpAndLink_pc :
    (s.jumpAndLink tgt link).pc = if tgt = link ∧ link ≠ 0 then s.npc else s.readReg tgt :=
  State.readReg_writeReg s link tgt s.npc

end Equations

/-- Everything an instruction can change: at most its destination register; the data memory only if it is SW;
`halted` only if it is HALT; never the instruction memory or the pipeline. -/
theorem exec_changes {i : Instr} {s t : State} (h : exec i s = .next t) :
    ((i.dest = none ∧ t.regs = s.regs) ∨ ∃ r v, i.dest = some r ∧ t.regs = RegFile.write s.regs r v) ∧
    (t.dmem = s.dmem ∨ ∃ sr base off, i = .sw sr base off ∧
      t.dmem = Memory.write s.dmem (memIndex (s.effectiveAddress base off)) (s.readReg sr)) ∧
    (t.halted = s.halted ∨ i = .halt ∧ t.halted = true) ∧ t.imem = s.imem ∧ t.pipe = s.pipe := by
  cases i with
  | add dr sr1 sr2 => cases h; exact ⟨.inr ⟨dr, _, rfl, rfl⟩, .inl rfl, .inl rfl, rfl, rfl⟩
  | addi dr sr1 imm => cases h; exact ⟨.inr ⟨dr, _, rfl, rfl⟩, .inl rfl, .inl rfl, rfl, rfl⟩
  | nand dr sr1 sr2 => cases h; exact ⟨.inr ⟨dr, _, rfl, rfl⟩, .inl rfl, .inl rfl, rfl, rfl⟩
  | lea dr off => cases h; exact ⟨.inr ⟨dr, _, rfl, rfl⟩, .inl rfl, .inl rfl, rfl, rfl⟩
  | lw dr base off => cases h; exact ⟨.inr ⟨dr, _, rfl, rfl⟩, .inl rfl, .inl rfl, rfl, rfl⟩
  | sw sr base off => cases h; exact ⟨.inl ⟨rfl, rfl⟩, .inr ⟨sr, base, off, rfl, rfl⟩, .inl rfl, rfl, rfl⟩
  | jalr tgt link => cases h; exact ⟨.inr ⟨link, _, rfl, rfl⟩, .inl rfl, .inl rfl, rfl, rfl⟩
  | halt => cases h; exact ⟨.inl ⟨rfl, rfl⟩, .inl rfl, .inr ⟨rfl, rfl⟩, rfl, rfl⟩
  | goto off => cases h; exact ⟨.inl ⟨rfl, rfl⟩, .inl rfl, .inl rfl, rfl, rfl⟩
  | skpe sr1 sr2 =>
    rw [exec_skpe, State.skip_eq] at h; cases h; exact ⟨.inl ⟨rfl, rfl⟩, .inl rfl, .inl rfl, rfl, rfl⟩
  | skpgt sr1 sr2 =>
    rw [exec_skpgt, State.skip_eq] at h; cases h; exact ⟨.inl ⟨rfl, rfl⟩, .inl rfl, .inl rfl, rfl, rfl⟩

/-- A reject never answers a next state. -/
theorem stopFor_ne_next (r : Reject) (t : State) : stopFor r ≠ .next t := by cases r <;> simp [stopFor]

end Sys2Proof.Machine
end

