-- ==== Sys2Proof/Laws/PerInstr.lean ====
section
/-! SUPPORT. Statements made per instruction. Family EncodesToRow: the word of an instruction is a word of its row of
spec/opcode_table.json, with zeros in the row's unused bits. -/

namespace Sys2Proof.Laws.EncodesToRow

/-- The instruction's word hits its row, and its unused bits are zero (R61, R68). -/
def Statement (i : Instr) : Prop := i.row.hits (encode i) = true ∧ encode i &&& i.row.unused = 0#32

/-- A mask as the four fields it covers. -/
theorem and_mask {op f27 f23 : BitVec 4} {low : BitVec 20} (m p : Word) (mo m27 m23 : BitVec 4) (ml : BitVec 20)
    (hm : m = packWord mo m27 m23 ml) (hp : p = packWord (op &&& mo) (f27 &&& m27) (f23 &&& m23) (low &&& ml)) :
    packWord op f27 f23 low &&& m = p := by rw [hm, hp, pack_and]

theorem lowReg_unused (r : RegNum) : lowReg r &&& 0xFFFF0#20 = 0#20 := by revert r; decide

theorem add (dr sr1 sr2 : RegNum) : Statement (.add dr sr1 sr2) :=
  ⟨by simp only [OpcodeRow.hits, Instr.row, encode, beq_iff_eq]; exact and_mask _ _ 0xF 0 0 0 rfl (by simp; rfl),
   by simp only [Instr.row, encode]; exact and_mask _ _ 0 0 0 0xFFFF0 rfl (by simp [lowReg_unused]; rfl)⟩

theorem addi (dr sr1 : RegNum) (imm : Imm20) : Statement (.addi dr sr1 imm) :=
  ⟨by simp only [OpcodeRow.hits, Instr.row, encode, beq_iff_eq]; exact and_mask _ _ 0xF 0 0 0 rfl (by simp; rfl),
   by simp [Instr.row, encode]⟩

theorem nand (dr sr1 sr2 : RegNum) : Statement (.nand dr sr1 sr2) :=
  ⟨by simp only [OpcodeRow.hits, Instr.row, encode, beq_iff_eq]; exact and_mask _ _ 0xF 0 0 0 rfl (by simp; rfl),
   by simp only [Instr.row, encode]; exact and_mask _ _ 0 0 0 0xFFFF0 rfl (by simp [lowReg_unused]; rfl)⟩

theorem skpe (sr1 sr2 : RegNum) : Statement (.skpe sr1 sr2) :=
  ⟨by simp only [OpcodeRow.hits, Instr.row, encode, beq_iff_eq]; exact and_mask _ _ 0xF 0xF 0 0 rfl (by simp; rfl),
   by simp only [Instr.row, encode]; exact and_mask _ _ 0 0 0 0xFFFF0 rfl (by simp [lowReg_unused]; rfl)⟩

theorem skpgt (sr1 sr2 : RegNum) : Statement (.skpgt sr1 sr2) :=
  ⟨by simp only [OpcodeRow.hits, Instr.row, encode, beq_iff_eq]; exact and_mask _ _ 0xF 0xF 0 0 rfl (by simp; rfl),
   by simp only [Instr.row, encode]; exact and_mask _ _ 0 0 0 0xFFFF0 rfl (by simp [lowReg_unused]; rfl)⟩

theorem goto (off : Imm20) : Statement (.goto off) :=
  ⟨by simp only [OpcodeRow.hits, Instr.row, encode, beq_iff_eq]; exact and_mask _ _ 0xF 0xF 0 0 rfl (by simp; rfl),
   by simp only [Instr.row, encode]; exact and_mask _ _ 0 0 0xF 0 rfl (by simp; rfl)⟩

theorem lea (dr : RegNum) (off : Imm20) : Statement (.lea dr off) :=
  ⟨by simp only [OpcodeRow.hits, Instr.row, encode, beq_iff_eq]; exact and_mask _ _ 0xF 0 0 0 rfl (by simp; rfl),
   by simp only [Instr.row, encode]; exact and_mask _ _ 0 0 0xF 0 rfl (by simp; rfl)⟩

theorem lw (dr base : RegNum) (off : Imm20) : Statement (.lw dr base off) :=
  ⟨by simp only [OpcodeRow.hits, Instr.row, encode, beq_iff_eq]; exact and_mask _ _ 0xF 0 0 0 rfl (by simp; rfl),
   by simp [Instr.row, encode]⟩

theorem sw (sr base : RegNum) (off : Imm20) : Statement (.sw sr base off) :=
  ⟨by simp only [OpcodeRow.hits, Instr.row, encode, beq_iff_eq]; exact and_mask _ _ 0xF 0 0 0 rfl (by simp; rfl),
   by simp [Instr.row, encode]⟩

theorem jalr (tgt link : RegNum) : Statement (.jalr tgt link) :=
  ⟨by simp only [OpcodeRow.hits, Instr.row, encode, beq_iff_eq]; exact and_mask _ _ 0xF 0 0 0 rfl (by simp; rfl),
   by simp only [Instr.row, encode]; exact and_mask _ _ 0 0 0 0xFFFFF rfl (by simp; rfl)⟩

theorem halt : Statement .halt := ⟨by decide, by decide⟩

end Sys2Proof.Laws.EncodesToRow
end

