-- ==== Sys2Proof/Laws/Step.lean ====
section
/-! SUPPORT. What a step can do, said once, and the unfolding of runs. -/

namespace Sys2Proof.Machine

theorem step_halted {s : State} (h : s.halted = true) : step s = .next s := by simp [step, h]

theorem step_ok {s : State} {i : Instr} (hh : s.halted = false) (hf : s.fetch = .ok i) : step s = exec i s := by
  simp [step, hh, hf]

theorem step_error {s : State} {r : Reject} (hh : s.halted = false) (hf : s.fetch = .error r) :
    step s = stopFor r := by simp [step, hh, hf]

/-- A step that answers a next state: the machine was halted, or it ran the instruction at the pc. -/
theorem step_next_cases {s t : State} (h : step s = .next t) :
    (s.halted = true ∧ t = s) ∨ ∃ i, s.halted = false ∧ s.fetch = .ok i ∧ exec i s = .next t := by
  cases hh : s.halted with
  | true =>
    rw [step_halted hh] at h
    cases h
    exact .inl ⟨rfl, rfl⟩
  | false =>
    cases hf : s.fetch with
    | ok i => exact .inr ⟨i, rfl, rfl, (step_ok hh hf).symm.trans h⟩
    | error r => exact absurd ((step_error hh hf).symm.trans h) (stopFor_ne_next r t)

section Runs
variable {s t : State} {n : Nat}

@[simp] theorem runSteps_zero (s : State) : runSteps 0 s = .next s := rfl

theorem runSteps_succ_next (h : step s = .next t) : runSteps (n + 1) s = runSteps n t := by
  unfold runSteps
  simp only [Host.Core.run]
  rw [show Host.Core.step core s = _ from h]

theorem runSteps_succ_fault {f : Fault} (h : step s = .fault f) : runSteps (n + 1) s = .fault f := by
  unfold runSteps
  simp only [Host.Core.run]
  rw [show Host.Core.step core s = _ from h]
  rfl

theorem runSteps_succ_refused {r : Refusal} (h : step s = .refused r) : runSteps (n + 1) s = .refused r := by
  unfold runSteps
  simp only [Host.Core.run]
  rw [show Host.Core.step core s = _ from h]
  rfl

/-- A run of `n + 1` steps that answers a next state goes through the state after its first step. -/
theorem runSteps_succ_cases {u : State} (h : runSteps (n + 1) s = .next u) :
    ∃ t, step s = .next t ∧ runSteps n t = .next u := by
  cases hs : step s with
  | next t => exact ⟨t, rfl, (runSteps_succ_next hs).symm.trans h⟩
  | fault f => rw [runSteps_succ_fault hs] at h; cases h
  | refused r => rw [runSteps_succ_refused hs] at h; cases h

/-- A run of `n + 1` steps is a run of `n` steps and one more. -/
theorem runSteps_snoc {n : Nat} {s t u : State} (h : runSteps n s = .next t) (hu : step t = .next u) :
    runSteps (n + 1) s = .next u := by
  induction n generalizing s with
  | zero => cases h; exact runSteps_succ_next hu
  | succ n ih =>
    obtain ⟨v, hv, hr⟩ := runSteps_succ_cases h
    exact (runSteps_succ_next hv).trans (ih hr)

/-- The last step of a run of `n + 1` steps. -/
theorem runSteps_snoc_cases {n : Nat} {s u : State} (h : runSteps (n + 1) s = .next u) :
    ∃ t, runSteps n s = .next t ∧ step t = .next u := by
  induction n generalizing s with
  | zero => obtain ⟨v, hv, hr⟩ := runSteps_succ_cases h; cases hr; exact ⟨s, rfl, hv⟩
  | succ n ih =>
    obtain ⟨v, hv, hr⟩ := runSteps_succ_cases h
    obtain ⟨t, ht, hs⟩ := ih hr
    exact ⟨t, (runSteps_succ_next hv).trans ht, hs⟩

@[simp] theorem runCycles_zero (s : State) : runCycles 0 s = .next s := rfl

theorem runCycles_succ_next (h : cycle s = .next t) : runCycles (n + 1) s = runCycles n t := by
  unfold runCycles
  simp only [Host.Core.run]
  rw [show Host.Core.step pipelineCore s = _ from h]

theorem runCycles_succ_fault {f : Fault} (h : cycle s = .fault f) : runCycles (n + 1) s = .fault f := by
  unfold runCycles
  simp only [Host.Core.run]
  rw [show Host.Core.step pipelineCore s = _ from h]
  rfl

theorem runCycles_succ_refused {r : Refusal} (h : cycle s = .refused r) : runCycles (n + 1) s = .refused r := by
  unfold runCycles
  simp only [Host.Core.run]
  rw [show Host.Core.step pipelineCore s = _ from h]
  rfl

theorem runCycles_succ_cases {u : State} (h : runCycles (n + 1) s = .next u) :
    ∃ t, cycle s = .next t ∧ runCycles n t = .next u := by
  cases hs : cycle s with
  | next t => exact ⟨t, rfl, (runCycles_succ_next hs).symm.trans h⟩
  | fault f => rw [runCycles_succ_fault hs] at h; cases h
  | refused r => rw [runCycles_succ_refused hs] at h; cases h

/-- A run of `k + 1` cycles is a run of `k` cycles and one more. -/
theorem runCycles_snoc {k : Nat} {s t u : State} (h : runCycles k s = .next t) (hu : cycle t = .next u) :
    runCycles (k + 1) s = .next u := by
  induction k generalizing s with
  | zero => cases h; exact runCycles_succ_next hu
  | succ n ih =>
    obtain ⟨v, hv, hr⟩ := runCycles_succ_cases h
    exact (runCycles_succ_next hv).trans (ih hr)

/-- The last cycle of a run of `k + 1` cycles. -/
theorem runCycles_snoc_cases {k : Nat} {s u : State} (h : runCycles (k + 1) s = .next u) :
    ∃ t, runCycles k s = .next t ∧ cycle t = .next u := by
  induction k generalizing s with
  | zero => obtain ⟨v, hv, hr⟩ := runCycles_succ_cases h; cases hr; exact ⟨s, rfl, hv⟩
  | succ n ih =>
    obtain ⟨v, hv, hr⟩ := runCycles_succ_cases h
    obtain ⟨t, ht, hs⟩ := ih hr
    exact ⟨t, (runCycles_succ_next hv).trans ht, hs⟩

end Runs

end Sys2Proof.Machine
end

