-- ==== Sys2Proof/Laws/Pipeline.lean ====
section
/-! SUPPORT. The pipeline against the sequential machine. `Sim t p` says that the pipeline state `p` is about to execute,
in EX, the instruction at the pc of the sequential state `t`, with everything older in flight already part of `t`;
Sim.step_sim says how many cycles one sequential step takes and that the relation holds again after them;
Phase.cycle_cases says what one cycle of a run can do. -/

namespace Sys2Proof.Machine

/-! ## Forwarding -/

/-- A write that a flag enables, read at a register other than 0. -/
theorem RegFile.read_ite_write (f : RegFile) (b : Bool) (r q : RegNum) (v : Word) (hq : q ≠ 0) :
    RegFile.read (if b then RegFile.write f r v else f) q = if b = true ∧ r = q then v else RegFile.read f q := by
  cases b
  · simp
  · by_cases h : q = r
    · subst h; simp [RegFile.read_write, hq]
    · simp [RegFile.read_write, h, Ne.symm h]

theorem State.wbRegs_eq (s : State) :
    s.wbRegs = if s.pipe.mw.wr then RegFile.write s.regs s.pipe.mw.dst s.pipe.mw.val else s.regs := by
  unfold State.wbRegs MemBuffer.writes RegFile.write
  cases s.pipe.mw.wr <;> by_cases h : s.pipe.mw.dst = 0 <;> simp [h]

/-- The register file once the instructions in WB and MEM have written back. -/
def State.drainedRegs (s : State) : RegFile :=
  if s.pipe.em.wr then RegFile.write s.wbRegs s.pipe.em.dst s.memValue else s.wbRegs

/-- A forwarded operand is what a read gives once EX, MEM and WB have written (R153, R155). -/
theorem State.operand_eq (s : State) (r : RegNum) :
    s.operand r = RegFile.read
      (if s.pipe.de.wr then RegFile.write s.drainedRegs s.pipe.de.dst s.pipe.de.exValue else s.drainedRegs) r := by
  by_cases hr : r = 0
  · simp [State.operand, hr]
  · rw [RegFile.read_ite_write _ _ _ _ _ hr, State.drainedRegs, RegFile.read_ite_write _ _ _ _ _ hr, State.wbRegs_eq,
      RegFile.read_ite_write _ _ _ _ _ hr]
    simp only [State.operand, hr, if_false, MemBuffer.writes]
    by_cases h : s.pipe.mw.dst = r <;> simp [h, hr]

/-! ## One cycle -/

/-- Unless a word that is no instruction is in EX, a running pipeline goes to its clock edge. -/
theorem cycle_edge {p : State} (hh : p.halted = false) (hr : ∀ r, p.pipe.de.op ≠ .reserved r) :
    cycle p = .next p.clockEdge := by
  unfold cycle
  rw [hh, if_neg Bool.false_ne_true]
  split
  · rename_i r h; exact absurd h (hr r)
  · rfl

theorem cycle_halted {p : State} (h : p.halted = true) : cycle p = .next p := by simp [cycle, h]

theorem cycle_reserved {p : State} {r : Reject} (hh : p.halted = false) (h : p.pipe.de.op = .reserved r) :
    cycle p = stopFor r := by simp [cycle, hh, h]

/-- A cycle that answers a next state: the machine was halted, or it went to its clock edge. -/
theorem cycle_next_cases {p q : State} (h : cycle p = .next q) :
    (p.halted = true ∧ q = p) ∨
      (p.halted = false ∧ (∀ r, p.pipe.de.op ≠ .reserved r) ∧ q = p.clockEdge) := by
  cases hh : p.halted with
  | true => rw [cycle_halted hh] at h; cases h; exact .inl ⟨rfl, rfl⟩
  | false =>
    by_cases hr : ∃ r, p.pipe.de.op = .reserved r
    · obtain ⟨r, hr⟩ := hr
      rw [cycle_reserved hh hr] at h
      exact absurd h (stopFor_ne_next r q)
    · have hr' : ∀ r, p.pipe.de.op ≠ .reserved r := fun r e => hr ⟨r, e⟩
      rw [cycle_edge hh hr'] at h
      cases h
      exact .inr ⟨rfl, hr', rfl⟩

/-- What the instruction in EX adds to the drained register file. -/
theorem State.drained_edge (p : State) : p.clockEdge.drainedRegs =
    if p.pipe.de.wr then RegFile.write p.drainedRegs p.pipe.de.dst p.clockEdge.memValue else p.drainedRegs := by
  have h1 : p.clockEdge.wbRegs = p.drainedRegs := by rw [State.wbRegs_eq]; rfl
  rw [State.drainedRegs, h1]
  rfl

/-! ## Bubbles -/

/-- The DE buffer holds an instruction with no effect. -/
structure DecodeBuffer.Bubble (de : DecodeBuffer) : Prop where
  op  : de.op = .add
  dst : de.wr = true → de.dst = 0

theorem DecodeBuffer.noop_bubble : DecodeBuffer.noop.Bubble := ⟨rfl, fun h => by cases h⟩

/-- The NOOP word of an emptied FD buffer decodes to a bubble. -/
theorem noopWord_bubble (npc : Word) (value : Option RegNum → Word) : (decodeBuffer 0#32 npc value).Bubble := by
  have h : decode 0#32 = .ok (.add 0 0 0) := by decide
  simp only [decodeBuffer, h]
  exact ⟨rfl, fun _ => rfl⟩

/-- A bubble in EX overrides nothing. -/
theorem DecodeBuffer.Bubble.front {p : State} (hb : p.pipe.de.Bubble) (hd : p.pipe.draining = false) :
    p.frontEnd = .advance := by
  have hs : ∀ r, p.operandStalls r = false := fun r => by simp [State.operandStalls, hb.op]
  have ho : ∀ o, p.operandStallsOpt o = false := fun o => by cases o <;> simp [State.operandStallsOpt, hs]
  have : p.idStalls = false := by unfold State.idStalls; cases decode p.pipe.fd.insn <;> simp [ho]
  simp [State.frontEnd, hd, hb.op, DecodeBuffer.taken, this]

/-! ## The relation between the two machines -/

/-- The pipeline runs, and once what is in MEM and WB has finished its registers and memories are those of `t`. -/
structure Behind (t p : State) : Prop where
  running  : p.halted = false
  fetching : p.pipe.draining = false
  imem     : p.imem = t.imem
  regs     : p.drainedRegs = t.regs
  dmem     : p.memDmem = t.dmem
  em       : p.pipe.em.op ≠ .halt
  mw       : p.pipe.mw.op ≠ .halt

theorem Behind.operand {t p : State} (h : Behind t p) (hb : p.pipe.de.Bubble) (r : RegNum) :
    p.operand r = t.readReg r := by
  rw [State.operand_eq, h.regs]
  cases hw : p.pipe.de.wr with
  | false => rfl
  | true => rw [hb.dst hw]; simp [State.readReg]

theorem Behind.bubble_cycle {t p : State} (h : Behind t p) (hb : p.pipe.de.Bubble) : cycle p = .next p.clockEdge :=
  cycle_edge h.running (fun r => by simp [hb.op])

theorem Behind.bubble_edge {t p : State} (h : Behind t p) (hb : p.pipe.de.Bubble) : Behind t p.clockEdge where
  running := by simp [State.clockEdge, h.running, h.mw]
  fetching := by simp [State.clockEdge, h.fetching, hb.op]
  imem := h.imem
  regs := by
    rw [State.drained_edge, h.regs]
    cases hw : p.pipe.de.wr with
    | false => rfl
    | true => rw [hb.dst hw]; simp
  dmem := by
    have : p.clockEdge.pipe.em.op = .add := hb.op
    simp only [State.memDmem, this]
    exact h.dmem
  em := by simp [State.clockEdge, DecodeBuffer.execute, hb.op]
  mw := h.em

/-- The operand values of the sequential state. -/
def State.operandOf (t : State) : Option RegNum → Word
  | none   => 0#32
  | some r => t.readReg r

/-- The DE buffer of the instruction at the pc of `t`. -/
def State.issued (t : State) : DecodeBuffer := decodeBuffer t.fetchWord t.npc t.operandOf

/-- `p` fetches next the instruction at the pc of `t`, behind bubbles. -/
structure Refilling (t p : State) : Prop extends Behind t p where
  bubble : p.pipe.de.Bubble
  fd     : p.pipe.fd = .noop
  pc     : p.pc = t.pc

/-- `p` has the instruction at the pc of `t` in FD, behind a bubble. -/
structure Ready (t p : State) : Prop extends Behind t p where
  bubble : p.pipe.de.Bubble
  fd     : p.pipe.fd = ⟨t.fetchWord, t.npc⟩
  pc     : p.pc = t.npc

/-- `p` has the instruction at the pc of `t` in DE and the next one in FD. -/
structure Sim (t p : State) : Prop extends Behind t p where
  de : p.pipe.de = t.issued
  fd : p.pipe.fd = ⟨t.ifetch t.npc, t.npc + 1#32⟩
  pc : p.pc = t.npc + 1#32

theorem State.ifetch_eq {t p : State} (h : p.imem = t.imem) (a : Word) : p.ifetch a = t.ifetch a := by
  simp [State.ifetch, h]

theorem Refilling.edge {t p : State} (h : Refilling t p) : Ready t p.clockEdge := by
  have hf := h.bubble.front h.fetching
  refine { h.toBehind.bubble_edge h.bubble with bubble := ?_, fd := ?_, pc := ?_ }
  · show DecodeBuffer.Bubble p.nextDe
    simp only [State.nextDe, hf, State.idBuffer, h.fd]
    exact noopWord_bubble _ _
  · show p.nextFd = _
    simp only [State.nextFd, hf, State.ifBuffer, State.npc, h.pc, State.ifetch_eq h.imem, State.fetchWord]
  · show p.nextPc = _
    simp only [State.nextPc, hf, State.npc, h.pc]

theorem Ready.edge {t p : State} (h : Ready t p) : Sim t p.clockEdge := by
  have hf := h.bubble.front h.fetching
  refine { h.toBehind.bubble_edge h.bubble with de := ?_, fd := ?_, pc := ?_ }
  · show p.nextDe = _
    simp only [State.nextDe, hf, State.idBuffer, h.fd, State.issued]
    congr 1
    funext o
    cases o with
    | none => rfl
    | some r => exact h.toBehind.operand h.bubble r
  · show p.nextFd = _
    simp only [State.nextFd, hf, State.ifBuffer, State.npc, h.pc, State.ifetch_eq h.imem]
  · show p.nextPc = _
    simp only [State.nextPc, hf, State.npc, h.pc]

/-- A running machine with an empty pipeline is about to fetch its own next instruction. -/
theorem refilling_of_empty {s : State} (he : s.pipe = Pipeline.empty) (hh : s.halted = false) : Refilling s s where
  running := hh
  fetching := by rw [he]; rfl
  imem := rfl
  regs := by simp [State.drainedRegs, State.wbRegs_eq, he, Pipeline.empty, ExecBuffer.noop, MemBuffer.noop]
  dmem := by simp [State.memDmem, he, Pipeline.empty, ExecBuffer.noop]
  em := by simp [he, Pipeline.empty, ExecBuffer.noop]
  mw := by simp [he, Pipeline.empty, MemBuffer.noop]
  bubble := by rw [he]; exact DecodeBuffer.noop_bubble
  fd := by rw [he]; rfl
  pc := rfl

/-! ## One sequential step in the pipeline -/

theorem issued_ok {t : State} {i : Instr} (h : t.fetch = .ok i) : t.issued =
    { op := i.stageOp, srcA := i.srcA.getD 0, dst := i.dest.getD 0, wr := i.dest.isSome,
      a := t.operandOf i.srcA, b := t.operandOf i.srcB, imm := sext32 (immField t.fetchWord), npc := t.npc } := by
  have h' : decode t.fetchWord = .ok i := h
  simp only [State.issued, decodeBuffer, h']

/-- The immediate of a decoded instruction is the word's low field. -/
theorem imm_of_decode {w : Word} :
    (∀ {a b m}, decode w = .ok (.addi a b m) → immField w = m) ∧ (∀ {m}, decode w = .ok (.goto m) → immField w = m) ∧
    (∀ {a m}, decode w = .ok (.lea a m) → immField w = m) ∧ (∀ {a b m}, decode w = .ok (.lw a b m) → immField w = m) ∧
    (∀ {a b m}, decode w = .ok (.sw a b m) → immField w = m) := by
  refine ⟨fun h => ?_, fun h => ?_, fun h => ?_, fun h => ?_, fun h => ?_⟩ <;>
    have := decode_ok_cases h <;> simp at this <;> simp [this]

theorem Sim.stageOp {t p : State} {i : Instr} (h : Sim t p) (hf : t.fetch = .ok i) : p.pipe.de.op = i.stageOp := by
  rw [h.de, issued_ok hf]

theorem stageOp_ne_halt {i : Instr} (hi : i ≠ .halt) : i.stageOp ≠ .halt := by
  cases i <;> simp_all [Instr.stageOp]

theorem Sim.cycle_eq {t p : State} {i : Instr} (h : Sim t p) (hf : t.fetch = .ok i) : cycle p = .next p.clockEdge :=
  cycle_edge h.running (fun r => by rw [h.stageOp hf]; cases i <;> simp [Instr.stageOp])

/-- The cycle in which the instruction at the pc of `t` is in EX, and is no HALT, adds its step. -/
theorem Sim.behind_edge {t u p : State} {i : Instr} (h : Sim t p) (hf : t.fetch = .ok i) (hi : i ≠ .halt)
    (hu : exec i t = .next u) : Behind u p.clockEdge := by
  have hde : p.pipe.de = _ := h.de.trans (issued_ok hf)
  have hop := h.stageOp hf
  have hne := stageOp_ne_halt hi
  have hc := exec_changes hu
  have hfw : decode t.fetchWord = .ok i := hf
  have hmv : p.clockEdge.dmem = t.dmem := h.dmem
  have hv : p.clockEdge.memValue =
      if p.pipe.de.op = .lw then t.memRead p.pipe.de.exValue else p.pipe.de.exValue := by
    simp only [State.memValue, State.memRead, hmv]; rfl
  have hd : p.clockEdge.memDmem =
      if p.pipe.de.op = .sw then Memory.write t.dmem (memIndex p.pipe.de.exValue) p.pipe.de.b else t.dmem := by
    simp only [State.memDmem, hmv]; rfl
  refine
    { running := by simp [State.clockEdge, h.running, h.mw]
      fetching := by simp [State.clockEdge, h.fetching, hop, hne]
      imem := h.imem.trans hc.2.2.2.1.symm
      regs := ?_
      dmem := ?_
      em := by simpa [State.clockEdge, DecodeBuffer.execute, hop] using hne
      mw := h.em }
  · rw [State.drained_edge, h.regs, hv, hde]
    cases i with
    | halt => exact absurd rfl hi
    | skpe a b => rw [exec_skpe, State.skip_eq] at hu; cases hu; rfl
    | skpgt a b => rw [exec_skpgt, State.skip_eq] at hu; cases hu; rfl
    | goto m => cases hu; rfl
    | sw a b m => cases hu; rfl
    | add a b c => cases hu; rfl
    | nand a b c => cases hu; rfl
    | jalr a b => cases hu; rfl
    | addi a b m => cases hu; rw [imm_of_decode.1 hfw]; rfl
    | lea a m => cases hu; rw [imm_of_decode.2.2.1 hfw]; rfl
    | lw a b m => cases hu; rw [imm_of_decode.2.2.2.1 hfw]; rfl
  · rw [hd, hde]
    cases i with
    | halt => exact absurd rfl hi
    | skpe a b => rw [exec_skpe, State.skip_eq] at hu; cases hu; rfl
    | skpgt a b => rw [exec_skpgt, State.skip_eq] at hu; cases hu; rfl
    | sw a b m => cases hu; rw [imm_of_decode.2.2.2.2 hfw]; rfl
    | goto m => cases hu; rfl
    | add a b c => cases hu; rfl
    | nand a b c => cases hu; rfl
    | jalr a b => cases hu; rfl
    | addi a b m => cases hu; rfl
    | lea a m => cases hu; rfl
    | lw a b m => cases hu; rfl

theorem Sim.taken {t p : State} {i : Instr} (h : Sim t p) (hf : t.fetch = .ok i) : p.pipe.de.taken = t.takes i := by
  rw [h.de, issued_ok hf]
  cases i <;> rfl

/-- A branch taken in EX has the pc of its sequential step as its target. -/
theorem Sim.target {t u p : State} {i : Instr} (h : Sim t p) (hf : t.fetch = .ok i) (ht : t.takes i = true)
    (hu : exec i t = .next u) : p.pipe.de.target = u.pc := by
  have hfw : decode t.fetchWord = .ok i := hf
  rw [h.de, issued_ok hf]
  cases i with
  | skpe a b =>
    rw [exec_skpe, State.skip] at hu; simp only [State.takes] at ht; rw [ht] at hu; cases hu; rfl
  | skpgt a b =>
    rw [exec_skpgt, State.skip] at hu; simp only [State.takes] at ht; rw [ht] at hu; cases hu; rfl
  | goto m => cases hu; rw [imm_of_decode.2.1 hfw]; rfl
  | jalr a b =>
    cases hu
    rw [State.jumpAndLink_pc]
    by_cases h1 : a = b <;> by_cases h2 : b = 0 <;>
      simp [DecodeBuffer.target, Instr.stageOp, Instr.srcA, Instr.dest, DecodeBuffer.aliased, State.operandOf, h1, h2]
  | _ => simp [State.takes] at ht

/-- An instruction that is no taken branch and no HALT goes on to `pc + 1`. -/
theorem untaken_pc {t u : State} {i : Instr} (hi : i ≠ .halt) (ht : t.takes i = false) (hu : exec i t = .next u) :
    u.pc = t.npc := by
  cases i with
  | skpe a b => rw [exec_skpe, State.skip] at hu; simp only [State.takes] at ht; rw [ht] at hu; cases hu; rfl
  | skpgt a b => rw [exec_skpgt, State.skip] at hu; simp only [State.takes] at ht; rw [ht] at hu; cases hu; rfl
  | goto m => simp [State.takes] at ht
  | jalr a b => simp [State.takes] at ht
  | halt => exact absurd rfl hi
  | _ => cases hu; rfl

/-- When no branch is taken, FD holds the instruction of the next sequential state. -/
theorem Sim.fd_next {t u p : State} {i : Instr} (h : Sim t p) (hi : i ≠ .halt) (hu : exec i t = .next u)
    (ht : t.takes i = false) : p.pipe.fd = ⟨u.fetchWord, u.npc⟩ ∧ p.pc = u.npc := by
  have hpc := untaken_pc hi ht hu
  have him := (exec_changes hu).2.2.2.1
  rw [h.fd, h.pc]
  simp [State.fetchWord, State.ifetch, State.npc, him, hpc]

/-- ID/RR stalls exactly on a load-use pair of the sequential run (R156). -/
theorem Sim.idStalls {t u p : State} {i : Instr} (h : Sim t p) (hf : t.fetch = .ok i) (hi : i ≠ .halt)
    (hu : exec i t = .next u) (ht : t.takes i = false) : p.idStalls = loadUsePair t u := by
  have hs : ∀ r, p.operandStalls r =
      match i with
      | .lw dr _ _ => decide (r ≠ 0) && decide (dr = r)
      | _          => false := by
    intro r
    rw [State.operandStalls, h.de, issued_ok hf]
    cases i <;> simp [Instr.dest, Instr.stageOp]
    rfl
  have ho : ∀ o, p.operandStallsOpt o =
      match i with
      | .lw dr _ _ => decide (dr ≠ 0) && decide (o = some dr)
      | _          => false := by
    intro o
    cases o with
    | none => cases i <;> simp [State.operandStallsOpt]
    | some r =>
      simp only [State.operandStallsOpt, hs]
      cases i <;> simp
      grind
  unfold loadUsePair
  rw [hf]
  cases hj : u.fetch with
  | error r =>
    have hd : decode p.pipe.fd.insn = .error r := by rw [(h.fd_next hi hu ht).1]; exact hj
    simp only [State.idStalls, hd]
  | ok j =>
    have hd : decode p.pipe.fd.insn = .ok j := by rw [(h.fd_next hi hu ht).1]; exact hj
    simp only [State.idStalls, hd, ho]
    cases i <;> simp [loadUse, Instr.reads, Bool.and_or_distrib_left]

/-- An operand that does not stall has its value in the next sequential state. -/
theorem Sim.operand {t u p : State} {i : Instr} (h : Sim t p) (hf : t.fetch = .ok i) (hi : i ≠ .halt)
    (hu : exec i t = .next u) (r : RegNum) (hs : p.operandStalls r = false) : p.operand r = u.readReg r := by
  have hb := (h.behind_edge hf hi hu).regs
  have hmv : p.clockEdge.memValue =
    if p.pipe.de.op = .lw then p.clockEdge.memRead p.pipe.de.exValue else p.pipe.de.exValue := rfl
  rw [State.drained_edge, hmv] at hb
  rw [State.operand_eq, State.readReg, ← hb]
  by_cases hr : r = 0
  · simp [hr]
  · rw [RegFile.read_ite_write _ _ _ _ _ hr, RegFile.read_ite_write _ _ _ _ _ hr]
    simp only [State.operandStalls] at hs
    by_cases h1 : p.pipe.de.wr = true ∧ p.pipe.de.dst = r
    · have hn : ¬ p.pipe.de.op = .lw := by simpa [h1, hr] using hs
      simp [h1, hn]
    · simp [h1]

theorem Sim.taken_edge {t u p : State} {i : Instr} (h : Sim t p) (hf : t.fetch = .ok i) (hi : i ≠ .halt)
    (hu : exec i t = .next u) (ht : t.takes i = true) : Refilling u p.clockEdge := by
  have hop : p.pipe.de.op ≠ .halt := by rw [h.stageOp hf]; exact stageOp_ne_halt hi
  have hfe : p.frontEnd = .flush u.pc := by
    simp [State.frontEnd, h.fetching, hop, h.taken hf, ht, h.target hf ht hu]
  refine { h.behind_edge hf hi hu with bubble := ?_, fd := ?_, pc := ?_ }
  · show DecodeBuffer.Bubble p.nextDe
    simp only [State.nextDe, hfe]
    exact DecodeBuffer.noop_bubble
  · show p.nextFd = _
    simp only [State.nextFd, hfe]
  · show p.nextPc = _
    simp only [State.nextPc, hfe]

theorem Sim.stall_edge {t u p : State} {i : Instr} (h : Sim t p) (hf : t.fetch = .ok i) (hi : i ≠ .halt)
    (hu : exec i t = .next u) (ht : t.takes i = false) (hs : p.idStalls = true) : Ready u p.clockEdge := by
  have hop : p.pipe.de.op ≠ .halt := by rw [h.stageOp hf]; exact stageOp_ne_halt hi
  have hfe : p.frontEnd = .stall := by simp [State.frontEnd, h.fetching, hop, h.taken hf, ht, hs]
  have hfd := h.fd_next hi hu ht
  refine { h.behind_edge hf hi hu with bubble := ?_, fd := ?_, pc := ?_ }
  · show DecodeBuffer.Bubble p.nextDe
    simp only [State.nextDe, hfe]
    exact DecodeBuffer.noop_bubble
  · show p.nextFd = _
    simp only [State.nextFd, hfe, hfd.1]
  · show p.nextPc = _
    simp only [State.nextPc, hfe, hfd.2]

theorem Sim.plain_edge {t u p : State} {i : Instr} (h : Sim t p) (hf : t.fetch = .ok i) (hi : i ≠ .halt)
    (hu : exec i t = .next u) (ht : t.takes i = false) (hs : p.idStalls = false) : Sim u p.clockEdge := by
  have hop : p.pipe.de.op ≠ .halt := by rw [h.stageOp hf]; exact stageOp_ne_halt hi
  have hfe : p.frontEnd = .advance := by simp [State.frontEnd, h.fetching, hop, h.taken hf, ht, hs]
  have hfd := h.fd_next hi hu ht
  have him := (exec_changes hu).2.2.2.1
  refine { h.behind_edge hf hi hu with de := ?_, fd := ?_, pc := ?_ }
  · show p.nextDe = _
    simp only [State.nextDe, hfe, State.idBuffer, State.issued, hfd.1]
    simp only [State.idStalls, hfd.1] at hs
    unfold decodeBuffer
    cases hd : decode u.fetchWord with
    | error r => rfl
    | ok j =>
      simp only [hd, Bool.or_eq_false_iff] at hs
      have key : ∀ o, p.operandStallsOpt o = false → p.operandOr0 o = u.operandOf o := by
        intro o ho
        cases o with
        | none => rfl
        | some r => exact h.operand hf hi hu r ho
      simp only [key _ hs.1, key _ hs.2]
  · show p.nextFd = _
    simp only [State.nextFd, hfe, State.ifBuffer, State.npc, hfd.2, State.ifetch, h.imem, him]
  · show p.nextPc = _
    simp only [State.nextPc, hfe, State.npc, hfd.2]

/-- The cycles from one instruction's EX to the next one's (R170). -/
def stepCycles (t u : State) : Nat := 1 + (loadUsePair t u).toNat + 2 * t.branches.toNat

/-- One sequential step of an instruction other than HALT: after `stepCycles` cycles the pipeline simulates the next
sequential state, and up to then it runs. -/
theorem Sim.step_sim {t u p : State} {i : Instr} (h : Sim t p) (hf : t.fetch = .ok i) (hi : i ≠ .halt)
    (hu : exec i t = .next u) :
    ∃ q, Sim u q ∧ (∀ n, runCycles (n + stepCycles t u) p = runCycles n q) ∧
      ∀ k, k < stepCycles t u → ∃ v, runCycles k p = .next v ∧ v.halted = false := by
  have hc := h.cycle_eq hf
  cases ht : t.takes i with
  | true =>
    have h1 := h.taken_edge hf hi hu ht
    have h2 := h1.edge
    have c1 := h1.toBehind.bubble_cycle h1.bubble
    have c2 := h2.toBehind.bubble_cycle h2.bubble
    have hlu : loadUsePair t u = false := by
      unfold loadUsePair
      rw [hf]
      cases u.fetch with
      | error r => rfl
      | ok j => cases i <;> simp_all [loadUse, State.takes]
    have hn : stepCycles t u = 3 := by simp [stepCycles, hlu, State.branches, hf, ht]
    refine ⟨_, h2.edge, fun n => ?_, fun k hk => ?_⟩
    · rw [hn, show n + 3 = n + 1 + 1 + 1 from rfl, runCycles_succ_next hc, runCycles_succ_next c1,
        runCycles_succ_next c2]
    · rw [hn] at hk
      match k, hk with
      | 0, _ => exact ⟨p, rfl, h.running⟩
      | 1, _ => exact ⟨_, runCycles_succ_next hc, h1.running⟩
      | 2, _ => exact ⟨_, (runCycles_succ_next hc).trans (runCycles_succ_next c1), h2.running⟩
  | false =>
    have hst := h.idStalls hf hi hu ht
    cases hs : p.idStalls with
    | false =>
      have hn : stepCycles t u = 1 := by simp [stepCycles, ← hst, hs, State.branches, hf, ht]
      refine ⟨_, h.plain_edge hf hi hu ht hs, fun n => by rw [hn, runCycles_succ_next hc], fun k hk => ?_⟩
      obtain rfl : k = 0 := by omega
      exact ⟨p, rfl, h.running⟩
    | true =>
      have h1 := h.stall_edge hf hi hu ht hs
      have hn : stepCycles t u = 2 := by simp [stepCycles, ← hst, hs, State.branches, hf, ht]
      refine ⟨_, h1.edge, fun n => ?_, fun k hk => ?_⟩
      · rw [hn, show n + 2 = n + 1 + 1 from rfl, runCycles_succ_next hc,
          runCycles_succ_next (h1.toBehind.bubble_cycle h1.bubble)]
      · rw [hn] at hk
        match k, hk with
        | 0, _ => exact ⟨p, rfl, h.running⟩
        | 1, _ => exact ⟨_, runCycles_succ_next hc, h1.running⟩

/-- HALT at the pc of `t`: in EX, MEM and WB it takes three cycles, in the last of which the pipeline halts with the
registers and memories of `t` (R114, R166). -/
theorem Sim.halt_sim {t p : State} (h : Sim t p) (hf : t.fetch = .ok .halt) :
    ∃ q, runCycles 3 p = .next q ∧ q.regs = t.regs ∧ q.dmem = t.dmem ∧ q.imem = t.imem ∧ q.halted = true ∧
      ∀ k, k < 3 → ∃ v, runCycles k p = .next v ∧ v.halted = false := by
  have hop : p.pipe.de.op = .halt := h.stageOp hf
  have hde := h.de.trans (issued_ok hf)
  have c1 := h.cycle_eq hf
  have f1 : p.frontEnd = .drain := by simp [State.frontEnd, hop]
  set p1 := p.clockEdge with hp1
  have d1 : p1.pipe.draining = true := by simp [hp1, State.clockEdge, hop]
  have o1 : p1.pipe.de = .noop := by simp [hp1, State.clockEdge, State.nextDe, f1]
  have r1 : p1.halted = false := by simp [hp1, State.clockEdge, h.running, h.mw]
  have em1 : p1.pipe.em = p.pipe.de.execute := rfl
  have c2 : cycle p1 = .next p1.clockEdge := cycle_edge r1 (by rw [o1]; simp [DecodeBuffer.noop])
  have f2 : p1.frontEnd = .drain := by simp [State.frontEnd, d1]
  set p2 := p1.clockEdge with hp2
  have o2 : p2.pipe.de = .noop := by simp [hp2, State.clockEdge, State.nextDe, f2]
  have r2 : p2.halted = false := by
    have : p1.pipe.mw.op = p.pipe.em.op := rfl
    simp [hp2, State.clockEdge, r1, this, h.em]
  have em2 : p2.pipe.em = DecodeBuffer.noop.execute := by show p1.pipe.de.execute = _; rw [o1]
  have mw2 : p2.pipe.mw.op = .halt := hop
  have mw2w : p2.pipe.mw.wr = false := by show p.pipe.de.wr = false; rw [hde]; rfl
  have c3 : cycle p2 = .next p2.clockEdge := cycle_edge r2 (by rw [o2]; simp [DecodeBuffer.noop])
  refine ⟨p2.clockEdge, (runCycles_succ_next c1).trans ((runCycles_succ_next c2).trans (runCycles_succ_next c3)),
    ?_, ?_, h.imem, ?_, fun k hk => ?_⟩
  · show p2.wbRegs = t.regs
    rw [State.wbRegs_eq, mw2w]
    show p1.wbRegs = t.regs
    rw [← h.regs, State.wbRegs_eq]
    rfl
  · show p2.memDmem = t.dmem
    simp only [State.memDmem, em2]
    show p1.memDmem = t.dmem
    have : p1.pipe.em.op ≠ .sw := by rw [em1]; show p.pipe.de.op ≠ .sw; rw [hop]; simp
    simp only [State.memDmem, this, if_false]
    exact h.dmem
  · show (p2.halted || decide (p2.pipe.mw.op = .halt)) = true
    simp [mw2]
  · match k, hk with
    | 0, _ => exact ⟨p, rfl, h.running⟩
    | 1, _ => exact ⟨p1, runCycles_succ_next c1, r1⟩
    | 2, _ => exact ⟨p2, (runCycles_succ_next c1).trans (runCycles_succ_next c2), r2⟩

/-- A word that is no instruction at the pc of `t` stops the pipeline in its EX cycle as it stops the step (R121). -/
theorem Sim.cycle_reserved {t p : State} {r : Reject} (h : Sim t p) (hf : t.fetch = .error r) :
    cycle p = stopFor r := by
  refine Sys2Proof.Machine.cycle_reserved h.running ?_
  have h' : decode t.fetchWord = .error r := hf
  rw [h.de, State.issued]
  simp only [decodeBuffer, h']

/-! ## Draining, and every cycle of a run -/

/-- What WB leaves is what MEM and WB drained to one cycle before. -/
theorem State.wbRegs_edge (p : State) : p.clockEdge.wbRegs = p.drainedRegs := by rw [State.wbRegs_eq]; rfl

/-- The HALT at the pc of `t` has left EX: nothing is fetched, and what is still in flight leads to `t`. -/
structure Draining (t p : State) : Prop where
  running  : p.halted = false
  draining : p.pipe.draining = true
  de       : p.pipe.de = .noop
  imem     : p.imem = t.imem
  regs     : p.drainedRegs = t.regs
  dmem     : p.memDmem = t.dmem
  em       : p.pipe.em.op ≠ .sw

theorem Draining.cycle_eq {t p : State} (h : Draining t p) : cycle p = .next p.clockEdge :=
  cycle_edge h.running (by rw [h.de]; simp [DecodeBuffer.noop])

/-- The cycle in which a HALT is in EX starts the draining. -/
theorem Sim.drain_edge {t p : State} (h : Sim t p) (hf : t.fetch = .ok .halt) : Draining t p.clockEdge := by
  have hop : p.pipe.de.op = .halt := h.stageOp hf
  have hw : p.pipe.de.wr = false := by rw [h.de.trans (issued_ok hf)]; rfl
  have f : p.frontEnd = .drain := by simp [State.frontEnd, hop]
  refine ⟨by simp [State.clockEdge, h.running, h.mw], by simp [State.clockEdge, hop],
    by simp [State.clockEdge, State.nextDe, f], h.imem, ?_, ?_, ?_⟩
  · rw [State.drained_edge, hw]; exact h.regs
  · have : p.clockEdge.pipe.em.op ≠ .sw := by show p.pipe.de.op ≠ .sw; rw [hop]; simp
    simp only [State.memDmem, this, if_false]
    exact h.dmem
  · show p.pipe.de.op ≠ .sw
    rw [hop]; simp

/-- Draining goes on until the HALT has been in WB. -/
theorem Draining.edge {t p : State} (h : Draining t p) : p.clockEdge.halted = true ∨ Draining t p.clockEdge := by
  have f : p.frontEnd = .drain := by simp [State.frontEnd, h.draining]
  have hem : p.clockEdge.pipe.em = DecodeBuffer.noop.execute := by show p.pipe.de.execute = _; rw [h.de]
  cases hh : p.clockEdge.halted with
  | true => exact .inl rfl
  | false =>
    refine .inr ⟨hh, by simp [State.clockEdge, h.draining], by simp [State.clockEdge, State.nextDe, f], h.imem,
      ?_, ?_, ?_⟩
    · rw [State.drained_edge, h.de]; exact h.regs
    · simp only [State.memDmem, hem]; exact h.dmem
    · rw [hem]; simp [DecodeBuffer.execute, DecodeBuffer.noop]

/-- Where the pipeline stands with respect to the sequential state `t`. -/
inductive Phase (t p : State) : Prop where
  | refilling (h : Refilling t p)
  | ready (h : Ready t p)
  | sim (h : Sim t p)
  | draining (h : Draining t p) (hf : t.fetch = .ok .halt)
  | halted (h : p.halted = true) (hf : t.fetch = .ok .halt)

/-- The state of the registers and of the data memory that the pipeline in flight leads to, unless it has halted. -/
theorem Phase.flight {t p : State} (h : Phase t p) (hh : p.halted = false) :
    p.drainedRegs = t.regs ∧ p.memDmem = t.dmem := by
  cases h with
  | refilling h => exact ⟨h.regs, h.dmem⟩
  | ready h => exact ⟨h.regs, h.dmem⟩
  | sim h => exact ⟨h.regs, h.dmem⟩
  | draining h _ => exact ⟨h.regs, h.dmem⟩
  | halted h _ => rw [hh] at h; cases h

/-- One clock cycle: the pipeline stays at `t` with no store in MEM, or the instruction at the pc of `t`, no HALT, goes
from EX to MEM and the pipeline is at the next sequential state. -/
theorem Phase.cycle_cases {t p q : State} (h : Phase t p) (hq : cycle p = .next q) :
    (Phase t q ∧ (q.halted = true ∨ q.pipe.em.op ≠ .sw)) ∨
      ∃ i u, t.fetch = .ok i ∧ i ≠ .halt ∧ exec i t = .next u ∧ Phase u q ∧ p.pipe.de = t.issued ∧ q = p.clockEdge ∧
        q.halted = false := by
  cases h with
  | refilling h =>
    rw [h.toBehind.bubble_cycle h.bubble] at hq; cases hq
    exact .inl ⟨.ready h.edge, .inr (by show p.pipe.de.op ≠ .sw; rw [h.bubble.op]; simp)⟩
  | ready h =>
    rw [h.toBehind.bubble_cycle h.bubble] at hq; cases hq
    exact .inl ⟨.sim h.edge, .inr (by show p.pipe.de.op ≠ .sw; rw [h.bubble.op]; simp)⟩
  | draining h hf =>
    rw [h.cycle_eq] at hq; cases hq
    rcases h.edge with he | he
    · exact .inl ⟨.halted he hf, .inl he⟩
    · exact .inl ⟨.draining he hf, .inr he.em⟩
  | halted h hf => rw [cycle_halted h] at hq; cases hq; exact .inl ⟨.halted h hf, .inl h⟩
  | sim h =>
    cases hf : t.fetch with
    | error r => rw [h.cycle_reserved hf] at hq; exact absurd hq (stopFor_ne_next r q)
    | ok i =>
      rw [h.cycle_eq hf] at hq; cases hq
      by_cases hi : i = .halt
      · subst hi
        exact .inl ⟨.draining (h.drain_edge hf) hf, .inr (h.drain_edge hf).em⟩
      · obtain ⟨u, hu⟩ : ∃ u, exec i t = .next u := by cases i <;> exact ⟨_, rfl⟩
        refine .inr ⟨i, u, rfl, hi, hu, ?_, h.de, rfl, (h.behind_edge hf hi hu).running⟩
        cases ht : t.takes i with
        | true => exact .refilling (h.taken_edge hf hi hu ht)
        | false =>
          cases hs : p.idStalls with
          | true => exact .ready (h.stall_edge hf hi hu ht hs)
          | false => exact .sim (h.plain_edge hf hi hu ht hs)

end Sys2Proof.Machine
end

