-- ==== Sys2Proof/Tests/Slice0.lean ====
section
/-! SUPPORT. Tests and witnesses. Expected values stand in spec/95_test_vectors.md (the id of the vector is in each
comment) or follow from the encodings of spec/30_encoding.md; no value was taken from the model. A `witness_` theorem
shows a concrete case that meets the hypotheses of the statement it names. -/

namespace Sys2Proof.Tests

open Sys2Proof.Machine

/-! ## Helpers -/

/-- Registers with the listed values, the others zero. -/
def regsOf (xs : List (RegNum × Word)) : RegFile :=
  xs.foldl (fun f p => RegFile.write f p.1 p.2) State.reset.regs

/-- A memory with the listed words. -/
def memOf (ws : List (Nat × Word)) : Memory := ws.foldl (fun m p => Memory.write m p.1 p.2) []

/-- The word at address 0x100 with the pc there, the convention of spec/95_test_vectors.md. -/
def at100 (w : Word) (xs : List (RegNum × Word)) (mem : List (Nat × Word) := []) : State :=
  { State.reset with pc := 0x100#32, regs := regsOf xs, imem := [(0x100, w)], dmem := memOf mem }

/-- A launched program. -/
def launched (ws : List Word) : State := State.launch State.reset.regs (programImage ws [])

/-- The outcome is a next state with the property. -/
def nextIs (o : Host.Outcome State Fault Refusal) (p : State → Bool) : Bool :=
  match o with
  | .next t    => p t
  | .fault _   => false
  | .refused _ => false

/-- The outcome is this fault. -/
def faultIs (o : Host.Outcome State Fault Refusal) (f : Fault) : Bool :=
  match o with
  | .next _    => false
  | .fault g   => decide (g = f)
  | .refused _ => false

/-- The outcome is this refusal. -/
def refusalIs (o : Host.Outcome State Fault Refusal) (r : Refusal) : Bool :=
  match o with
  | .next _    => false
  | .fault _   => false
  | .refused q => decide (q = r)

/-- Exactly the pc and the listed registers changed. -/
def changed (s : State) (pc : Word) (xs : List (RegNum × Word)) (t : State) : Bool :=
  decide (t = { s with pc := pc, regs := xs.foldl (fun f p => RegFile.write f p.1 p.2) s.regs })

/-- The pipeline with an instruction word in FD and DE, EM and MW as given. -/
def piped (fdWord : Word) (de : DecodeBuffer) (em : ExecBuffer) (mw : MemBuffer) : State :=
  { State.reset with pc := 8#32, pipe := ⟨⟨fdWord, 7#32⟩, de, em, mw, false⟩ }

/-- An instruction without operand values in DE. -/
def deOf (w : Word) : DecodeBuffer := decodeBuffer w 6#32 (fun _ => 0#32)

/-! ## Decoding: words written bit by bit from R62 to R69 -/

/-- Format R, ADD: `0000 | DR | SR1 | unused | SR2`. -/
theorem test_decode_add : decode 0b0000_0010_0011_1010101111001101_0100#32 = .ok (.add 2 3 4) := by decide

/-- Format R, NAND: `0010 | DR | SR1 | unused | SR2`. -/
theorem test_decode_nand : decode 0b0010_0111_0110_0000000000000000_0110#32 = .ok (.nand 7 6 6) := by decide

/-- Format I, ADDI: `0001 | DR | SR1 | immval20`. -/
theorem test_decode_addi : decode 0b0001_0110_0000_11111111111111111111#32 = .ok (.addi 6 0 (-1)) := by decide

/-- Format I, LW and SW: `1000` or `1001`, then the register and BaseR. -/
theorem test_decode_lw_sw :
    decode 0b1000_0110_0111_00000000000000000101#32 = .ok (.lw 6 7 5) ∧
    decode 0b1001_0111_0011_00000000000000000001#32 = .ok (.sw 7 3 1) := by decide

/-- Format S, SKPE and SKPGT: `0011 | mode | SR1 | unused | SR2`. -/
theorem test_decode_skp :
    decode 0b0011_0000_0011_0000000000000000_0100#32 = .ok (.skpe 3 4) ∧
    decode 0b0011_0001_0110_0000000000000000_0000#32 = .ok (.skpgt 6 0) := by decide

/-- Format P, GOTO and LEA: `0100 | 0000` or `0101 | DR`, four unused bits, PCoffset20. -/
theorem test_decode_goto_lea :
    decode 0b0100_0000_1111_00000000000000000011#32 = .ok (.goto 3) ∧
    decode 0b0101_0011_1111_00000000000000000111#32 = .ok (.lea 3 7) := by decide

/-- Formats J and H: `1100 | AT | RA | unused` and `1111 | unused`. -/
theorem test_decode_jalr_halt :
    decode 0b1100_0110_1111_11111111111111111111#32 = .ok (.jalr 6 15) ∧
    decode 0b1111_0001001000110100010101100111#32 = .ok .halt := by decide

/-- The reserved words of spec/95_test_vectors.md section 2. -/
theorem test_decode_reserved :
    decode 0x32300004#32 = .error (.reservedSkpMode 0x32300004#32) ∧
    decode 0x3F300004#32 = .error (.reservedSkpMode 0x3F300004#32) ∧
    decode 0x41000000#32 = .error (.reservedGotoField 0x41000000#32) ∧
    decode 0x60000000#32 = .error (.illegalInstruction 0x60000000#32) ∧
    decode 0x7FFFFFFF#32 = .error (.illegalInstruction 0x7FFFFFFF#32) ∧
    decode 0xA0000001#32 = .error (.illegalInstruction 0xA0000001#32) ∧
    decode 0xB0000000#32 = .error (.illegalInstruction 0xB0000000#32) ∧
    decode 0xD0000000#32 = .error (.illegalInstruction 0xD0000000#32) ∧
    decode 0xE0000000#32 = .error (.illegalInstruction 0xE0000000#32) := by decide

/-- The strict setting of D7 refuses a "same as" word and no other. -/
theorem test_decode_strict :
    decodeWith { Config.options with unusedBits := .refuse } 0x023ABCD4#32 = .error (.nonzeroUnusedBits 0x023ABCD4#32) ∧
    decodeWith { Config.options with unusedBits := .refuse } 0x02300004#32 = .ok (.add 2 3 4) := by decide

/-- The settings `no_skip` and `ignore` (S17, G8). -/
theorem test_decode_alternatives :
    decodeWith { Config.options with skpReservedMode := .noSkip } 0x32300004#32 = .ok (.add 0 0 0) ∧
    decodeWith { Config.options with gotoFixedField := .ignore } 0x41000000#32 = .ok (.goto 0) := by decide

/-- The word numbering of the opcode table: bit 0 is the word's least significant bit (R60). -/
theorem test_table_word : decodeTableWord 32 0x97300001 = some (.sw 7 3 1) ∧ decodeTableWord 32 0x60000000 = none := by
  decide

/-- No two rows of the opcode table can hit one word: their patterns differ in a bit that both masks fix. -/
theorem test_table_rows_apart :
    opcodeTable.Pairwise (fun r q => r.pattern &&& q.mask ≠ q.pattern &&& r.mask) := by decide

/-! ## Well-formedness: one ill-formed term for each check -/

theorem test_register_16_refused : regNumberOk 16 = false := by decide
theorem test_immediate_above_refused : immediateOk 524288 = false := by decide
theorem test_immediate_below_refused : immediateOk (-524289) = false := by decide

/-- A line with each kind of ill-formed operand assembles to nothing (R71, R74). -/
theorem test_assemble_refuses :
    Asm.assemble 0 (.add 16 0 0) = none ∧ Asm.assemble 0 (.addi 6 0 524288) = none ∧
    Asm.assemble 0 (.lw 6 (-524289) 7) = none ∧ Asm.assemble 0 (.goto 0x80001#32) = none := by decide

/-- E1, P1, P2: assembler lines and their words. -/
theorem test_assemble_words :
    Asm.assembleWord 0 (.lw 6 5 7) = some 0x86700005#32 ∧ Asm.assembleWord 1 (.addi 6 6 1) = some 0x16600001#32 ∧
    Asm.assembleWord 6 (.goto 2) = some 0x400FFFFB#32 ∧ Asm.assembleWord 0 (.lea 3 8) = some 0x53000007#32 ∧
    Asm.assembleWord 4 (.sw 7 1 3) = some 0x97300001#32 ∧ Asm.assembleWord 2 (.jalr 6 15) = some 0xC6F00000#32 := by
  decide

/-- The names of R22. -/
theorem test_register_names :
    Asm.registerNamed "$zero" = some 0 ∧ Asm.registerNamed "$t0" = some 6 ∧ Asm.registerNamed "$ra" = some 15 ∧
    Asm.registerNamed "$t9" = none := by decide

/-! ## One step -/

/-- A2. -/
theorem test_add_wraps : nextIs (step (at100 0x02300004#32 [(3, 0x7FFFFFFF#32), (4, 1#32)]))
    (changed (at100 0x02300004#32 [(3, 0x7FFFFFFF#32), (4, 1#32)]) 0x101#32 [(2, 0x80000000#32)]) = true := by decide

/-- A5. -/
theorem test_add_same_register : nextIs (step (at100 0x03300003#32 [(3, 0x40000001#32)]))
    (changed (at100 0x03300003#32 [(3, 0x40000001#32)]) 0x101#32 [(3, 0x80000002#32)]) = true := by decide

/-- A12. -/
theorem test_addi_smallest : nextIs (step (at100 0x16080000#32 []))
    (changed (at100 0x16080000#32 []) 0x101#32 [(6, 0xFFF80000#32)]) = true := by decide

/-- A15. -/
theorem test_addi_zero_register : nextIs (step (at100 0x10300009#32 [(3, 1#32)]))
    (changed (at100 0x10300009#32 [(3, 1#32)]) 0x101#32 []) = true := by decide

/-- A20. -/
theorem test_nand : nextIs (step (at100 0x22300004#32 [(3, 0xFFFF0000#32), (4, 0x0FF00FF0#32)]))
    (changed (at100 0x22300004#32 [(3, 0xFFFF0000#32), (4, 0x0FF00FF0#32)]) 0x101#32 [(2, 0xF00FFFFF#32)]) = true := by
  decide

/-- S1 and S2. -/
theorem test_skpe : nextIs (step (at100 0x30300004#32 [(3, 5#32), (4, 5#32)])) (fun t => t.pc == 0x102#32) = true ∧
    nextIs (step (at100 0x30300004#32 [(3, 5#32), (4, 6#32)])) (fun t => t.pc == 0x101#32) = true := by decide

/-- S9 and S12. -/
theorem test_skpgt_signed :
    nextIs (step (at100 0x31300004#32 [(3, 0#32), (4, 0xFFFFFFFF#32)])) (fun t => t.pc == 0x102#32) = true ∧
    nextIs (step (at100 0x31300004#32 [(3, 0x80000000#32), (4, 0x7FFFFFFF#32)])) (fun t => t.pc == 0x101#32) = true := by
  decide

/-- G4 and G6. -/
theorem test_goto : nextIs (step (at100 0x400FFFFB#32 [])) (changed (at100 0x400FFFFB#32 []) 0xFC#32 []) = true ∧
    nextIs (step (at100 0x40080000#32 [])) (fun t => t.pc == 0xFFF80101#32) = true := by decide

/-- M4. -/
theorem test_lea_32_bits : nextIs (step (at100 0x53080000#32 []))
    (changed (at100 0x53080000#32 []) 0x101#32 [(3, 0xFFF80101#32)]) = true := by decide

/-- M8. -/
theorem test_lw_truncates : nextIs (step (at100 0x86700005#32 [(7, 0x01000100#32)] [(0x105, 0xDEADBEEF#32)]))
    (changed (at100 0x86700005#32 [(7, 0x01000100#32)] [(0x105, 0xDEADBEEF#32)]) 0x101#32 [(6, 0xDEADBEEF#32)])
    = true := by decide

/-- M11. -/
theorem test_lw_base_is_destination : nextIs (step (at100 0x87700000#32 [(7, 0x200#32)] [(0x200, 0x33#32)]))
    (fun t => t.readReg 7 == 0x33#32) = true := by decide

/-- M17, with the instruction memory untouched. -/
theorem test_sw : nextIs (step (at100 0x95600000#32 [(5, 0xCAFE#32), (6, 0xAB000010#32)]))
    (fun t => decide (t = { at100 0x95600000#32 [(5, 0xCAFE#32), (6, 0xAB000010#32)] with
      pc := 0x101#32, dmem := [(0x10, 0xCAFE#32)] })) = true := by decide

/-- M15: storing what an unlisted word reads as removes the entry. -/
theorem test_sw_zero : nextIs (step (at100 0x90600000#32 [(6, 0x300#32)] [(0x300, 0x77#32)]))
    (fun t => decide (t.dmem = [])) = true := by decide

/-- J1. -/
theorem test_jalr : nextIs (step (at100 0xC6F00000#32 [(6, 0x500#32)]))
    (changed (at100 0xC6F00000#32 [(6, 0x500#32)]) 0x500#32 [(15, 0x101#32)]) = true := by decide

/-- J5, under both settings; under `refuse`, J4 still runs. -/
theorem test_jalr_one_register :
    nextIs (step (at100 0xC5500000#32 [(5, 0x500#32)]))
      (changed (at100 0xC5500000#32 [(5, 0x500#32)]) 0x101#32 [(5, 0x101#32)]) = true ∧
    decodeWith { Config.options with jalrAlias := .refuse } 0xC5500000#32 = .error (.jalrAlias 0xC5500000#32) ∧
    refusalIs (stopFor (.jalrAlias 0xC5500000#32)) (.jalrAlias 0xC5500000#32) = true ∧
    decodeWith { Config.options with jalrAlias := .refuse } 0xC0000000#32 = .ok (.jalr 0 0) := by decide

/-- T1. -/
theorem test_halt : nextIs (step (at100 0xF0000000#32 [(3, 9#32)]))
    (fun t => t.halted && decide (t.regs = regsOf [(3, 9#32)]) && decide (t.dmem = [])) = true := by decide

/-- T3 and S17, G8: the outcomes of R121. -/
theorem test_stops :
    faultIs (step (at100 0x60000000#32 [])) (.illegalInstruction 0x60000000#32) = true ∧
    refusalIs (step (at100 0x32300004#32 [])) (.reservedSkpMode 0x32300004#32) = true ∧
    refusalIs (step (at100 0x41000000#32 [])) (.reservedGotoField 0x41000000#32) = true := by decide

/-- M13: the launched image is in both memories. -/
theorem test_launch_both_memories : nextIs (step { launched [0x86000000#32] with pc := 0#32 })
    (fun t => t.readReg 6 == 0x86000000#32) = true := by decide

/-! ## One clock cycle -/

/-- E1, cycle 3: ADDI in ID/RR reads the register that the LW in EX loads. -/
theorem test_cycle_load_use_stall : nextIs (cycle (piped 0x16600001#32 (deOf 0x86700005#32) .noop .noop))
    (fun t => decide (t.pc = 8#32) && decide (t.pipe.fd = ⟨0x16600001#32, 7#32⟩) && decide (t.pipe.de = .noop))
    = true := by decide

/-- H6: the GOTO in EX cancels the store in FD and the word being fetched. -/
theorem test_cycle_flush : nextIs (cycle (piped 0x96000030#32 (deOf 0x40000002#32) .noop .noop))
    (fun t => decide (t.pc = 8#32) && decide (t.pipe.fd = .noop) && decide (t.pipe.de = .noop)) = true := by decide

/-! ## Witnesses for the statements' hypotheses -/

/-- DecodeOfEncodeIsTheInstruction: each clause, and under `refuse` the JALR forms on both sides of the exception. -/
theorem witness_wellFormed : ({ Config.options with jalrAlias := .refuse } : Config.Options).jalrAlias = .refuse ∧
    (∀ r : RegNum, Instr.jalr 0 0 = .jalr r r → r = 0) ∧ (∀ r : RegNum, Instr.jalr 6 15 = .jalr r r → r = 0) ∧
    (15 : RegNum) ≠ 0 ∧ (Instr.addi 15 15 (-524288)).wellFormed = true ∧ (Instr.sw 0 15 524287).wellFormed = true ∧
    Instr.halt.wellFormed = true := by decide

/-- EncodeOfDecodeClearsUnusedBitsOnly, UnusedBitsAreIgnored, DecoderAgreesWithOpcodeTable: words that decode, with and
without nonzero unused bits. -/
theorem witness_decodes : decode 0x023ABCD4#32 = .ok (.add 2 3 4) ∧ decode 0x1607FFFF#32 = .ok (.addi 6 0 0x7FFFF#20) ∧
    decode 0xFFFFFFFF#32 = .ok .halt := by decide

/-- DecoderAgreesWithOpcodeTable: the first and the last row, each hit by a word. -/
theorem witness_rows_hit : Instr.halt.row ∈ opcodeTable ∧ Instr.halt.row.hits 0xFFFFFFFF#32 = true ∧
    (Instr.add 0 0 0).row ∈ opcodeTable ∧ (Instr.add 0 0 0).row.hits 0#32 = true := by decide

/-- StrictSettingRefusesNonzeroUnusedBits, AlternativeSettingsOfReservedFields: each side of every condition, at the
ends of its range. -/
theorem witness_fields :
    (opcodeField 0x32000000#32 = 3#4 ∧ (modeField 0x32000000#32).toNat = 2) ∧
    (opcodeField 0x31000000#32 = 3#4 ∧ (modeField 0x31000000#32).toNat = 1) ∧
    (opcodeField 0x3F000000#32 = 3#4 ∧ (modeField 0x3F000000#32).toNat = 15) ∧
    (opcodeField 0x4F000000#32 = 4#4 ∧ modeField 0x4F000000#32 ≠ 0#4) ∧
    0x00000010#32 &&& (Instr.add 0 0 0).row.unused ≠ 0#32 := by decide

/-- JalrWithOneRegisterFollowsTheParameter: words on each side of its condition. -/
theorem witness_jalr_words :
    (opcodeField 0xCFFFFFFF#32 = 12#4 ∧ regField27 0xCFFFFFFF#32 = regField23 0xCFFFFFFF#32 ∧
      regField27 0xCFFFFFFF#32 ≠ 0) ∧
    (opcodeField 0xC00FFFFF#32 = 12#4 ∧ regField27 0xC00FFFFF#32 = 0) ∧
    (opcodeField 0xC5600000#32 = 12#4 ∧ regField27 0xC5600000#32 ≠ regField23 0xC5600000#32) ∧
    opcodeField 0x85500000#32 ≠ 12#4 := by decide

/-- EveryInstructionCompletes: a SW and an address it does not store to, and a register no destination. -/
theorem witness_frame : (Claims.storeOf (at100 0#32 [(3, 8#32)]) (.sw 7 3 1)).map Prod.fst ≠ some 8 ∧
    (Claims.storeOf (at100 0#32 [(3, 8#32)]) (.sw 7 3 1)).map Prod.fst = some 9 ∧
    (Claims.storeOf (at100 0#32 []) (.lw 6 7 5)).map Prod.fst ≠ some 5 ∧ (Instr.lw 6 7 5).dest ≠ some 7 := by decide

/-- StepRunsTheDecodedInstruction. -/
theorem witness_running_decodes : (at100 0x97300001#32 []).halted = false ∧
    decode (Memory.read (at100 0x97300001#32 []).imem (memIndex (at100 0x97300001#32 []).pc)) = .ok (.sw 7 3 1) := by
  decide

/-- StopsExactlyOnReservedWords: the fault clause. -/
theorem witness_fault : (at100 0x6FFFFFFF#32 []).halted = false ∧
    (opcodeField (at100 0x6FFFFFFF#32 []).fetchWord).toNat = 6 ∧
    (opcodeField (at100 0xE0000000#32 []).fetchWord).toNat = 14 ∧
    faultIs (step (at100 0xE0000000#32 [])) (.illegalInstruction 0xE0000000#32) = true := by decide

/-- StopsExactlyOnReservedWords: the refusal clauses, and the neighbours that run. -/
theorem witness_refusal :
    refusalIs (step (at100 0x3F000000#32 [])) (.reservedSkpMode 0x3F000000#32) = true ∧
    refusalIs (step (at100 0x4F000000#32 [])) (.reservedGotoField 0x4F000000#32) = true ∧
    nextIs (step (at100 0x31000000#32 [])) (fun _ => true) = true ∧
    nextIs (step (at100 0x40000000#32 [])) (fun _ => true) = true := by decide

/-- PlacedInstructionRunsNext: also a halted machine runs what is placed. -/
theorem witness_placed : State.reset.imem.wf = true ∧ (at100 0x60000000#32 []).imem.wf = true ∧
    nextIs (step ((State.reset.halt).withFetchWord 32 (encode (.addi 6 0 5)).toNat)) (fun t => t.readReg 6 == 5#32)
      = true := by decide

/-- StepDependsOnOneInstructionWord: another word elsewhere, for each outcome. -/
theorem witness_other_imem :
    Memory.read [(0x100, 0x30000000#32), (0x101, 0xF0000000#32)] (memIndex (at100 0x30000000#32 []).pc) =
      Memory.read (at100 0x30000000#32 []).imem (memIndex (at100 0x30000000#32 []).pc) ∧
    nextIs (step (at100 0x30000000#32 [])) (fun t => t.pc == 0x102#32) = true ∧
    Memory.read [(0x100, 0x60000000#32), (0x101, 0xF0000000#32)] (memIndex (at100 0x60000000#32 []).pc) =
      Memory.read (at100 0x60000000#32 []).imem (memIndex (at100 0x60000000#32 []).pc) ∧
    faultIs (step (at100 0x60000000#32 [])) (.illegalInstruction 0x60000000#32) = true ∧
    Memory.read [(0x100, 0x32000000#32), (0x101, 0xF0000000#32)] (memIndex (at100 0x32000000#32 []).pc) =
      Memory.read (at100 0x32000000#32 []).imem (memIndex (at100 0x32000000#32 []).pc) ∧
    refusalIs (step (at100 0x32000000#32 [])) (.reservedSkpMode 0x32000000#32) = true := by decide

/-- ZeroRegisterReadsZeroAndDiscardsWrites: the six instructions with a destination, on register 0. -/
theorem witness_dest_zero : (Instr.add 0 3 4).dest = some 0 ∧ (Instr.addi 0 3 4).dest = some 0 ∧
    (Instr.nand 0 3 4).dest = some 0 ∧ (Instr.lea 0 7).dest = some 0 ∧ (Instr.lw 0 7 0).dest = some 0 ∧
    (Instr.jalr 15 0).dest = some 0 := by decide

/-- RegistersOutsideTheFieldsPlayNoPart: a register that is not the destination, and one that is no source, with and
without being the destination. -/
theorem witness_register_outside : nextIs (exec (.sw 7 3 1) (at100 0#32 [(3, 8#32)])) (fun _ => true) = true ∧
    (Instr.sw 7 3 1).dest ≠ some 3 ∧ (Instr.sw 7 3 1).reads 2 = false ∧
    nextIs (exec (.lw 6 7 5) (at100 0#32 [])) (fun _ => true) = true ∧ (Instr.lw 6 7 5).reads 6 = false ∧
    (Instr.lw 6 7 5).dest = some 6 := by decide

/-- The encoding clauses of the instruction statements: a word of each opcode, with any other bits. -/
theorem witness_opcodes : opcodeField 0x0FFFFFFF#32 = 0#4 ∧ opcodeField 0x1FFFFFFF#32 = 1#4 ∧
    opcodeField 0x2FFFFFFF#32 = 2#4 ∧ (opcodeField 0x30FFFFFF#32 = 3#4 ∧ modeField 0x30FFFFFF#32 = 0#4) ∧
    (opcodeField 0x31FFFFFF#32 = 3#4 ∧ modeField 0x31FFFFFF#32 = 1#4) ∧
    (opcodeField 0x40FFFFFF#32 = 4#4 ∧ modeField 0x40FFFFFF#32 = 0#4) ∧ opcodeField 0x5FFFFFFF#32 = 5#4 ∧
    opcodeField 0x8FFFFFFF#32 = 8#4 ∧ opcodeField 0x9FFFFFFF#32 = 9#4 ∧ opcodeField 0xCFFFFFFF#32 = 12#4 ∧
    opcodeField 0xFFFFFFFF#32 = 15#4 := by decide

/-- SkpeSkipsOnEqualRegisters: a skip that is taken over a HALT. -/
theorem witness_skip_taken : (at100 0x30300004#32 [(3, 5#32), (4, 5#32)]).readReg 3 =
      (at100 0x30300004#32 [(3, 5#32), (4, 5#32)]).readReg 4 ∧
    nextIs (exec (.skpe 3 4) (at100 0x30300004#32 [(3, 5#32), (4, 5#32)])) (fun t =>
      decide (State.fetch { t with imem := Memory.write t.imem 0x101 0xF0000000#32 } = t.fetch)) = true := by decide

/-- NotNoopAndAndIdioms: also with the scratch register equal to a source and to the destination. -/
theorem witness_and_idiom : (1 : RegNum) ≠ 0 ∧ (15 : RegNum) ≠ 0 ∧
    nextIs (exec (.nand 1 3 4) (at100 0#32 [(3, 12#32), (4, 10#32)])) (fun t =>
      nextIs (exec (.nand 1 1 1) t) (fun u => u.readReg 1 == 8#32)) = true := by decide

/-- SignedComparisonOnBitPatterns: its two operands are any two register values; here the extremes. -/
theorem witness_signed_operands : (0x7FFFFFFF#32 : Word) = (at100 0#32 [(3, 0x7FFFFFFF#32)]).readReg 3 ∧
    (0x80000000#32 : Word) = (at100 0#32 [(4, 0x80000000#32)]).readReg 4 := by decide

/-- SwStoresTheRegisterAtTheAddressedWord, DataMemoryReadsBackWhatWasWritten,
EveryWordIsTheLatestStoreOrTheImage: a canonical data memory with words at both ends of the space. -/
theorem witness_dmem_wf : (at100 0#32 [] [(0xFFFFFF, 1#32), (0, 2#32)]).dmem.wf = true ∧
    (at100 0#32 [] [(0xFFFFFF, 1#32), (0, 2#32)]).dmem = [(0, 2#32), (0xFFFFFF, 1#32)] := by decide

/-- AddressesAreTruncatedOnAccessOnly: two addresses of one word, and a destination other than register 0. -/
theorem witness_same_word : (0xAB000010#32 : Word).toNat % 2 ^ 24 = (0x00000010#32 : Word).toNat % 2 ^ 24 ∧
    (3 : RegNum) ≠ 0 := by decide

/-- ImmediatesAreSignExtended: bits on both sides of bit 20. -/
theorem witness_bits : (19 < 20) ∧ (20 ≤ 20 ∧ 20 < 32) ∧ (20 ≤ 31 ∧ 31 < 32) := by decide

/-- JalrLinksAndJumps: each side of its premise, and both; JalrWithOneRegisterFollowsTheParameter: the rest. -/
theorem witness_jalr_registers : ((6 : RegNum) ≠ 15 ∨ (6 : RegNum) = 0) ∧ ((0 : RegNum) ≠ 0 ∨ (0 : RegNum) = 0) ∧
    ((0 : RegNum) ≠ 15 ∨ (0 : RegNum) = 0) ∧ ¬((5 : RegNum) ≠ 5 ∨ (5 : RegNum) = 0) ∧ (5 : RegNum) ≠ 0 := by decide

/-- CallAndReturnComesBack: the state behind the call is itself one that still holds the link. -/
theorem witness_call : (15 : RegNum) ≠ 0 ∧ (6 : RegNum) ≠ 15 ∧
    nextIs (exec (.jalr 6 15) (at100 0#32 [(6, 0x500#32)])) (fun t =>
      nextIs (exec (.addi 2 0 1) t) (fun u => u.readReg 15 == t.readReg 15)) = true := by decide

/-- HaltedMachineChangesNothing. -/
theorem witness_halted : State.reset.halt.halted = true := by decide

/-- OnlyHaltEndsARun: one step that halts and one that does not, and a run of two steps that ends halted. -/
theorem witness_halting_run : (launched [0x12000001#32, 0xF0000000#32]).halted = false ∧
    nextIs (step (launched [0x12000001#32, 0xF0000000#32])) (fun t => !t.halted) = true ∧
    nextIs (runSteps 2 (launched [0x12000001#32, 0xF0000000#32])) (fun t => t.halted) = true := by decide

/-- StoresNeverReachInstructionFetch, EveryWordIsTheLatestStoreOrTheImage: a run, in steps and in cycles, that stores
twice to the address of its own first word. -/
theorem witness_storing_run :
    nextIs (runSteps 3 (launched [0x16000009#32, 0x96000000#32, 0x90000000#32]))
      (fun t => decide (t.dmem.read 0 = 0#32) && decide (t.ifetch 0#32 = 0x16000009#32)) = true ∧
    nextIs (runCycles 6 (launched [0x16000009#32, 0x96000000#32]))
      (fun t => decide (t.dmem.read 0 = 9#32) && decide (t.ifetch 0#32 = 0x16000009#32)) = true := by decide

/-- CanonicalMemoriesWithEqualReadsAreEqual: two ways to write one memory. -/
theorem witness_equal_reads : (memOf [(5, 1#32), (9, 2#32)]).wf = true ∧ (memOf [(9, 2#32), (5, 1#32)]).wf = true ∧
    ∀ a, a < 2 ^ 24 → Memory.read (memOf [(5, 1#32), (9, 2#32)]) a = Memory.read (memOf [(9, 2#32), (5, 1#32)]) a := by
  have h : memOf [(5, 1#32), (9, 2#32)] = memOf [(9, 2#32), (5, 1#32)] := by decide
  exact ⟨by decide, by decide, fun a _ => by rw [h]⟩

/-- ProgramImageHoldsWordIAtAddressI: the empty program and one that fills the memory. -/
theorem witness_programs : Memory.wf [(3, 7#32)] = true ∧ ([] : List Word).length ≤ 2 ^ 24 ∧
    (List.replicate (2 ^ 24) (0xF0000000#32 : Word)).length ≤ 2 ^ 24 ∧ 0 < 2 ^ 24 ∧ 2 ^ 24 - 1 < 2 ^ 24 :=
  ⟨by decide, by decide, by rw [List.length_replicate], by decide, by decide⟩

/-- LaunchStateIsTheResetTable: registers other than 0, with a nonzero value in slot 0 of what is given. -/
theorem witness_launch : (1 : RegNum) ≠ 0 ∧ (15 : RegNum) ≠ 0 ∧
    (State.launch (Vector.replicate 16 7#32) []).readReg 0 = 0#32 ∧
    (State.launch (Vector.replicate 16 7#32) []).readReg 15 = 7#32 := by decide

/-- ResetAndLaunchMeetTheInvariant, StepKeepsTheInvariant, CycleKeepsTheInvariant: a launch state with a program, which
meets the invariant and has a next state both ways. -/
theorem witness_invariant : ((launched [0x16000005#32]).regs[0] = 0#32 ∧ (launched [0x16000005#32]).imem.wf = true ∧
    (launched [0x16000005#32]).dmem.wf = true) ∧ nextIs (step (launched [0x16000005#32])) (fun _ => true) = true ∧
    nextIs (cycle (launched [0x16000005#32])) (fun _ => true) = true := by decide

/-- ForwardingDeliversTheNewestValue: three producers of one register in flight, and none. -/
theorem witness_forwarding :
    (piped 0#32 ⟨.addi, 0, 6, true, 0#32, 0#32, 3#32, 0#32⟩ ⟨.addi, 6, true, 2#32, 0#32⟩ ⟨.addi, 6, true, 1#32⟩).operandStalls
      6 = false ∧
    (piped 0#32 ⟨.addi, 0, 6, true, 0#32, 0#32, 3#32, 0#32⟩ ⟨.addi, 6, true, 2#32, 0#32⟩ ⟨.addi, 6, true, 1#32⟩).operand
      6 = 3#32 ∧
    (piped 0#32 .noop .noop .noop).operandStalls 6 = false := by decide

/-- ZeroRegisterIsNeverForwardedNorStalledOn: a LW in EX and writers in MEM and WB, all of register 0. -/
theorem witness_zero_producers :
    (piped 0#32 (deOf 0x80000005#32) ⟨.addi, 0, true, 2#32, 0#32⟩ ⟨.addi, 0, true, 1#32⟩).pipe.de.dst = 0 ∧
    (piped 0#32 (deOf 0x80000005#32) ⟨.addi, 0, true, 2#32, 0#32⟩ ⟨.addi, 0, true, 1#32⟩).pipe.de.wr = true ∧
    (piped 0#32 (deOf 0x80000005#32) ⟨.addi, 0, true, 2#32, 0#32⟩ ⟨.addi, 0, true, 1#32⟩).pipe.em.dst = 0 ∧
    (piped 0#32 (deOf 0x80000005#32) ⟨.addi, 0, true, 2#32, 0#32⟩ ⟨.addi, 0, true, 1#32⟩).pipe.mw.dst = 0 := by decide

/-- StallsExactlyOnLoadUse: a load-use pair that stalls (its second source), and a LW to register 0 that does not. -/
theorem witness_load_use :
    (piped 0x08600007#32 (deOf 0x87000004#32) .noop .noop).pipe.de = decodeBuffer 0x87000004#32 6#32 (fun _ => 0#32) ∧
    decode 0x87000004#32 = .ok (.lw 7 0 4) ∧
    decode (piped 0x08600007#32 (deOf 0x87000004#32) .noop .noop).pipe.fd.insn = .ok (.add 8 6 7) ∧
    (piped 0x08600007#32 (deOf 0x87000004#32) .noop .noop).idStalls = true ∧
    decode 0x80000005#32 = .ok (.lw 0 0 5) ∧
    (piped 0x07000000#32 (deOf 0x80000005#32) .noop .noop).idStalls = false := by decide

/-- StallsExactlyOnLoadUse, its other clauses: a bubble in EX, a reserved word in EX, a reserved word in FD behind a LW. -/
theorem witness_no_stall : (piped 0x08600007#32 .noop .noop .noop).pipe.de = .noop ∧
    (piped 0x08600007#32 (deOf 0x60000000#32) .noop .noop).pipe.de.op =
      .reserved (.illegalInstruction 0x60000000#32) ∧
    decode (piped 0x67700007#32 (deOf 0x87000004#32) .noop .noop).pipe.fd.insn =
      .error (.illegalInstruction 0x67700007#32) := by decide

/-- HaltInExDrainsThePipeline: a HALT in EX, the draining cycles behind it, and the machine halting three cycles on with
`draining` still true. -/
theorem witness_drain : (piped 0x16600001#32 (deOf 0xF0000000#32) .noop .noop).halted = false ∧
    (piped 0x16600001#32 (deOf 0xF0000000#32) .noop .noop).pipe.de.op = .halt ∧
    (piped 0x16600001#32 (deOf 0xF0000000#32) .noop .noop).pipe.draining = false ∧
    nextIs (cycle (piped 0x16600001#32 (deOf 0xF0000000#32) .noop .noop))
      (fun t => t.pipe.draining && decide (t.pipe.de = .noop) && !t.halted) = true ∧
    nextIs (runCycles 3 (piped 0x16600001#32 (deOf 0xF0000000#32) .noop .noop))
      (fun t => t.pipe.draining && t.halted) = true := by decide

/-- StallCycleHoldsFetchAndSendsANoop. -/
theorem witness_stall : (piped 0x97000021#32 (deOf 0x87000020#32) .noop .noop).halted = false ∧
    (piped 0x97000021#32 (deOf 0x87000020#32) .noop .noop).pipe.draining = false ∧
    (piped 0x97000021#32 (deOf 0x87000020#32) .noop .noop).idStalls = true := by decide

/-- TakenBranchCancelsTheTwoYoungerInstructions: each of the four branches, taken. -/
theorem witness_taken : (piped 0#32 (deOf 0x40000002#32) .noop .noop).pipe.de.taken = true ∧
    (piped 0#32 (deOf 0x30000000#32) .noop .noop).pipe.de.taken = true ∧
    (piped 0#32 ⟨.skpgt, 3, 0, false, 0#32, 0xFFFFFFFF#32, 0#32, 6#32⟩ .noop .noop).pipe.de.taken = true ∧
    (piped 0#32 (deOf 0xC6F00000#32) .noop .noop).pipe.de.taken = true ∧
    (piped 0#32 (deOf 0xC5500000#32) .noop .noop).pipe.de.aliased = true ∧
    (piped 0#32 (deOf 0x40000002#32) .noop .noop).halted = false ∧
    (piped 0#32 (deOf 0x40000002#32) .noop .noop).pipe.draining = false := by decide

/-- FlushedWordsHaveNoEffect: behind a taken branch, behind a HALT in EX, and while draining. -/
theorem witness_flush : (piped 0x96000030#32 (deOf 0x40000002#32) .noop .noop).pipe.de.taken = true ∧
    nextIs (cycle (piped 0x96000030#32 (deOf 0x40000002#32) .noop .noop)) (fun _ => true) = true ∧
    (piped 0x96000030#32 (deOf 0xF0000000#32) .noop .noop).pipe.de.op = .halt ∧
    nextIs (cycle (piped 0x96000030#32 (deOf 0xF0000000#32) .noop .noop)) (fun t => t.pipe.draining &&
      nextIs (cycle t) (fun _ => true)) = true := by decide

/-- RegisterFileIsWrittenInWbOnly: a write in WB and a register that it does not name. -/
theorem witness_wb : (piped 0#32 .noop .noop ⟨.addi, 6, true, 1#32⟩).halted = false ∧
    nextIs (cycle (piped 0#32 .noop .noop ⟨.addi, 6, true, 1#32⟩))
      (fun t => t.readReg 6 == 1#32 && t.readReg 7 == 0#32) = true := by decide

/-- StoresHappenInMemAndHaltsInWb: a SW in MEM and a HALT in WB in one cycle. -/
theorem witness_mem_wb : (piped 0#32 .noop ⟨.sw, 0, false, 0xAB000010#32, 5#32⟩ ⟨.halt, 0, false, 0#32⟩).halted = false ∧
    (piped 0#32 .noop ⟨.sw, 0, false, 0xAB000010#32, 5#32⟩ ⟨.halt, 0, false, 0#32⟩).dmem.wf = true ∧
    nextIs (cycle (piped 0#32 .noop ⟨.sw, 0, false, 0xAB000010#32, 5#32⟩ ⟨.halt, 0, false, 0#32⟩))
      (fun t => t.halted && decide (t.dmem.read 0x10 = 5#32)) = true := by decide

/-- FirstFourCyclesWriteNoRegister: both ends of the range; the fifth cycle does write (R167). -/
theorem witness_first_cycles : 0 ≤ 4 ∧ 4 ≤ 4 ∧ (launched [0x16000005#32]).pipe = Pipeline.empty ∧
    nextIs (runCycles 4 (launched [0x16000005#32])) (fun t => t.readReg 6 == 0#32) = true ∧
    nextIs (runCycles 5 (launched [0x16000005#32])) (fun t => t.readReg 6 == 5#32) = true := by decide

/-- PipelineMatchesTheSequentialRun: a run of two instructions, a skip that is taken and a HALT; its eight cycles are
those of R170, and the seventh still runs. -/
theorem witness_halts : (launched [0x30000000#32, 0xF0000000#32, 0xF0000000#32]).pipe = Pipeline.empty ∧
    (launched [0x30000000#32, 0xF0000000#32, 0xF0000000#32]).halted = false ∧
    nextIs (runSteps 2 (launched [0x30000000#32, 0xF0000000#32, 0xF0000000#32])) (fun t => t.halted) = true ∧
    (tally 2 (launched [0x30000000#32, 0xF0000000#32, 0xF0000000#32])).cycles = 8 ∧
    nextIs (runCycles 8 (launched [0x30000000#32, 0xF0000000#32, 0xF0000000#32])) (fun t => t.halted) = true ∧
    nextIs (runCycles 7 (launched [0x30000000#32, 0xF0000000#32, 0xF0000000#32])) (fun t => !t.halted) = true := by
  decide

/-- PipelineStopsWhereTheSequentialRunStops, PipelineEndsOnlyWhereTheSequentialRunEnds: a fault and a refusal, in
steps and in cycles, and a reserved word that a skip passes over. -/
theorem witness_stopping_runs :
    faultIs (runSteps 1 (launched [0x60000000#32])) (.illegalInstruction 0x60000000#32) = true ∧
    faultIs (runCycles 3 (launched [0x60000000#32])) (.illegalInstruction 0x60000000#32) = true ∧
    refusalIs (runSteps 1 (launched [0x32000000#32])) (.reservedSkpMode 0x32000000#32) = true ∧
    refusalIs (runCycles 3 (launched [0x32000000#32])) (.reservedSkpMode 0x32000000#32) = true ∧
    nextIs (runCycles 8 (launched [0x30000000#32, 0x60000000#32, 0xF0000000#32])) (fun t => t.halted) = true := by
  decide

/-- PipelinePassesThroughTheSequentialStates: a program that stores and then loops for ever; after two steps,
and after five cycles, its one store is made. -/
theorem witness_endless_run : (launched [0x16000009#32, 0x96000030#32, 0x400FFFFF#32]).pipe = Pipeline.empty ∧
    (launched [0x16000009#32, 0x96000030#32, 0x400FFFFF#32]).halted = false ∧
    nextIs (runSteps 2 (launched [0x16000009#32, 0x96000030#32, 0x400FFFFF#32])) (fun t => t.dmem.read 0x30 == 9#32)
      = true ∧
    nextIs (runSteps 4 (launched [0x16000009#32, 0x96000030#32, 0x400FFFFF#32])) (fun t => !t.halted) = true ∧
    nextIs (runCycles 5 (launched [0x16000009#32, 0x96000030#32, 0x400FFFFF#32])) (fun t => t.dmem.read 0x30 == 9#32)
      = true ∧
    Claims.cycleStoresOf 5 (launched [0x16000009#32, 0x96000030#32, 0x400FFFFF#32]) = [(0x30, 9#32)] ∧
    Claims.storesOf 2 (launched [0x16000009#32, 0x96000030#32, 0x400FFFFF#32]) = [(0x30, 9#32)] := by decide

/-- AssembledLabelsReachTheirAddress: both ends of the reach, one past each end, and the registers' ends. -/
theorem witness_labels : (0 < 16 ∧ 15 < 16) ∧
    (0x80100#32 : Word).toNat - ((0x100#32 : Word).toNat + 1 : Int) = 524287 ∧
    (0x80101#32 : Word).toNat - ((0x100#32 : Word).toNat + 1 : Int) = 524288 ∧
    (0x1#32 : Word).toNat - ((0x80000#32 : Word).toNat + 1 : Int) = -524288 ∧
    (0x0#32 : Word).toNat - ((0x80000#32 : Word).toNat + 1 : Int) = -524289 ∧
    (Asm.assemble 0x100#32 (.goto 0x80100#32)).isSome = true ∧ Asm.assemble 0x100#32 (.goto 0x80101#32) = none ∧
    (Asm.assemble 0x80000#32 (.lea 15 1#32)).isSome = true ∧ Asm.assemble 0x80000#32 (.lea 0 0#32) = none ∧
    (at100 0#32 []).pc = 0x100#32 := by decide

/-- ImmediatesAreNeverTruncated: both ends, and one past each. -/
theorem witness_immediates : Asm.immediate 524287 = some 0x7FFFF#20 ∧ Asm.immediate (-524288) = some 0x80000#20 ∧
    Asm.immediate 524288 = none ∧ Asm.immediate (-524289) = none := by decide

end Sys2Proof.Tests
end

/-! The instruction memory along a run (spec/20_memory.md R51): no step and no clock cycle changes it, so no run does,
and a fetch reads nothing else. -/

namespace Sys2Proof.Machine

@[simp] theorem State.clockEdge_imem (s : State) : s.clockEdge.imem = s.imem := rfl

theorem step_keeps_imem {s t : State} (h : step s = .next t) : t.imem = s.imem := by
  obtain ⟨-, rfl⟩ | ⟨i, -, -, hx⟩ := step_next_cases h
  · rfl
  · obtain ⟨-, -, -, himem, -⟩ := exec_changes hx
    exact himem

theorem cycle_keeps_imem {s t : State} (h : cycle s = .next t) : t.imem = s.imem := by
  obtain ⟨-, rfl⟩ | ⟨-, -, rfl⟩ := cycle_next_cases h
  · rfl
  · exact s.clockEdge_imem

theorem runSteps_keeps_imem {n : Nat} {s t : State} (h : runSteps n s = .next t) : t.imem = s.imem := by
  induction n generalizing s with
  | zero => cases h; rfl
  | succ n ih =>
    obtain ⟨u, hu, hr⟩ := runSteps_succ_cases h
    exact (ih hr).trans (step_keeps_imem hu)

theorem runCycles_keeps_imem {n : Nat} {s t : State} (h : runCycles n s = .next t) : t.imem = s.imem := by
  induction n generalizing s with
  | zero => cases h; rfl
  | succ n ih =>
    obtain ⟨u, hu, hr⟩ := runCycles_succ_cases h
    exact (ih hr).trans (cycle_keeps_imem hu)

/-- Settles O37: no step and no clock cycle changes the instruction memory, by induction on their number. -/
theorem storesNeverReachInstructionFetch : Obligations.StoresNeverReachInstructionFetch := by
  unfold Obligations.StoresNeverReachInstructionFetch
  constructor
  · intro n s t a h
    have himem := runSteps_keeps_imem h
    exact ⟨himem, State.ifetch_eq himem a⟩
  · intro n s t a h
    have himem := runCycles_keeps_imem h
    exact ⟨himem, State.ifetch_eq himem a⟩

end Sys2Proof.Machine

/-! The register file and register 0 in the pipeline (spec/70_reset_and_hazards.md R157, R158): a cycle writes the
register file in WB only, and the write of an instruction with destination 0 is nowhere to be seen, neither in the
register file nor in a forwarded operand. -/

namespace Sys2Proof.Machine

@[simp] theorem State.clockEdge_regs (s : State) : s.clockEdge.regs = s.wbRegs := rfl

/-- WB as a read sees it (R145, R158); register 0 reads as zero on both sides. -/
theorem State.read_wbRegs (s : State) (r : RegNum) : RegFile.read s.wbRegs r =
    if s.pipe.mw.wr = true ∧ s.pipe.mw.dst = r ∧ r ≠ 0 then s.pipe.mw.val else s.readReg r := by
  by_cases hr : r = 0
  · simp [hr, State.readReg]
  · rw [State.wbRegs_eq, RegFile.read_ite_write _ _ _ _ _ hr]
    simp [hr, State.readReg]

/-- Settles O52: a running cycle goes to its clock edge, whose register file is the one behind WB. -/
theorem registerFileIsWrittenInWbOnly : Obligations.RegisterFileIsWrittenInWbOnly := by
  unfold Obligations.RegisterFileIsWrittenInWbOnly
  intro s t r hrun h
  obtain ⟨hh, -⟩ | ⟨-, -, rfl⟩ := cycle_next_cases h
  · simp [hrun] at hh
  · rw [State.readReg, State.clockEdge_regs, State.read_wbRegs]

@[simp] theorem State.operand_zero (s : State) : s.operand 0 = 0#32 := by simp [State.operand]

@[simp] theorem State.operandStalls_zero (s : State) : s.operandStalls 0 = false := by simp [State.operandStalls]

section DestinationZero
variable {s : State}

/-- Register 0 is the only source that could match the destination in EX, and it never stalls. -/
theorem State.operandStalls_of_de_dst_zero (h : s.pipe.de.dst = 0) (r : RegNum) : s.operandStalls r = false := by
  by_cases hr : r = 0
  · simp [hr]
  · simp [State.operandStalls, h, Ne.symm hr]

theorem State.operand_of_de_dst_zero (h : s.pipe.de.dst = 0) (r : RegNum) :
    s.operand r = RegFile.read s.drainedRegs r := by
  simp [State.operand_eq, h]

theorem State.drainedRegs_of_em_dst_zero (h : s.pipe.em.dst = 0) : s.drainedRegs = s.wbRegs := by
  simp [State.drainedRegs, h]

theorem State.wbRegs_of_mw_dst_zero (h : s.pipe.mw.dst = 0) : s.wbRegs = s.regs := by simp [State.wbRegs_eq, h]

end DestinationZero

/-- Settles O46: register 0 as a source is guarded in both functions; as the destination in EX, MEM or WB its write is
void, so the operand is one read of the same file whether the instruction writes or not. -/
theorem zeroRegisterIsNeverForwardedNorStalledOn : Obligations.ZeroRegisterIsNeverForwardedNorStalledOn := by
  unfold Obligations.ZeroRegisterIsNeverForwardedNorStalledOn
  refine ⟨fun s => ⟨s.operand_zero, s.operandStalls_zero⟩, fun s r h => ⟨State.operandStalls_of_de_dst_zero h r, ?ex⟩,
    fun s r h => ?mem, fun s r h => ?wb⟩
  case ex => simp only [State.operand_of_de_dst_zero, h]; rfl
  case mem => simp only [State.operand_eq, State.drainedRegs_of_em_dst_zero, h]; rfl
  case wb => simp only [State.operand_eq, State.drainedRegs, State.wbRegs_of_mw_dst_zero, h]; rfl

end Sys2Proof.Machine

/-! Runs of steps and of cycles: a halted machine stays, a stop ends a run, and what a step of a running machine can
be. -/

namespace Sys2Proof.Machine

theorem exec_total (i : Instr) (s : State) : ∃ t, exec i s = .next t := by cases i <;> exact ⟨_, rfl⟩

/-- HALT alone sets `halted`. -/
theorem exec_running {i : Instr} {s t : State} (h : exec i s = .next t) (hi : i ≠ .halt) : t.halted = s.halted := by
  obtain ⟨-, -, hh | ⟨rfl, -⟩, -, -⟩ := exec_changes h
  · exact hh
  · exact absurd rfl hi

/-- A step of a running machine: a stop, a HALT, or an instruction after which the machine still runs. -/
theorem step_running_cases {s : State} (h : s.halted = false) :
    (∃ r, s.fetch = .error r ∧ step s = stopFor r) ∨ (s.fetch = .ok .halt ∧ step s = .next s.halt) ∨
      ∃ i t, s.fetch = .ok i ∧ i ≠ .halt ∧ exec i s = .next t ∧ step s = .next t ∧ t.halted = false := by
  cases hf : s.fetch with
  | error r => exact .inl ⟨r, rfl, step_error h hf⟩
  | ok i =>
    by_cases hi : i = .halt
    · subst hi
      exact .inr (.inl ⟨rfl, step_ok h hf⟩)
    · obtain ⟨t, ht⟩ := exec_total i s
      exact .inr (.inr ⟨i, t, rfl, hi, ht, (step_ok h hf).trans ht, (exec_running ht hi).trans h⟩)

section Runs
variable {s t : State} {r : Reject}

theorem runSteps_halted (h : s.halted = true) (n : Nat) : runSteps n s = .next s := by
  induction n with
  | zero => rfl
  | succ n ih => exact (runSteps_succ_next (step_halted h)).trans ih

theorem runCycles_halted (h : s.halted = true) (k : Nat) : runCycles k s = .next s := by
  induction k with
  | zero => rfl
  | succ k ih => exact (runCycles_succ_next (cycle_halted h)).trans ih

theorem runSteps_succ_stopFor (h : step s = stopFor r) (n : Nat) : runSteps (n + 1) s = stopFor r := by
  cases r with
  | illegalInstruction w => exact runSteps_succ_fault h
  | reservedSkpMode w => exact runSteps_succ_refused h
  | reservedGotoField w => exact runSteps_succ_refused h
  | nonzeroUnusedBits w => exact runSteps_succ_refused h
  | jalrAlias w => exact runSteps_succ_refused h

theorem runCycles_succ_stopFor (h : cycle s = stopFor r) (k : Nat) : runCycles (k + 1) s = stopFor r := by
  cases r with
  | illegalInstruction w => exact runCycles_succ_fault h
  | reservedSkpMode w => exact runCycles_succ_refused h
  | reservedGotoField w => exact runCycles_succ_refused h
  | nonzeroUnusedBits w => exact runCycles_succ_refused h
  | jalrAlias w => exact runCycles_succ_refused h

/-- Where a run has come to a state, it goes on from there. -/
theorem runCycles_add {k : Nat} (h : runCycles k s = .next t) (n : Nat) : runCycles (n + k) s = runCycles n t := by
  induction k generalizing s with
  | zero => cases h; rfl
  | succ k ih =>
    obtain ⟨u, hu, hr⟩ := runCycles_succ_cases h
    exact (runCycles_succ_next hu).trans (ih hr)

end Runs

end Sys2Proof.Machine

/-! The runs that end: a halting run of the pipeline with its cycle count, and stops in both directions
(spec/70_reset_and_hazards.md R166, R170). Sim.step_sim takes the induction from one instruction to the next. -/

namespace Sys2Proof.Machine

/-- In `d` clock cycles, before whose end it does not halt, the pipeline comes from `p` to `q`. -/
structure RunsTo (d : Nat) (p q : State) : Prop where
  reach   : ∀ n, runCycles (n + d) p = runCycles n q
  running : ∀ k, k < d → ∃ v, runCycles k p = .next v ∧ v.halted = false

theorem Sim.runsTo_step {t u p : State} {i : Instr} (h : Sim t p) (hf : t.fetch = .ok i) (hi : i ≠ .halt)
    (hu : exec i t = .next u) : ∃ q, Sim u q ∧ RunsTo (stepCycles t u) p q := by
  obtain ⟨q, hq, hreach, hrunning⟩ := h.step_sim hf hi hu
  exact ⟨q, hq, hreach, hrunning⟩

/-- Two cycles bring the next instruction to EX. -/
theorem Refilling.runsTo_sim {t p : State} (h : Refilling t p) : ∃ q, Sim t q ∧ RunsTo 2 p q := by
  have c1 := h.toBehind.bubble_cycle h.bubble
  have c2 := h.edge.toBehind.bubble_cycle h.edge.bubble
  refine ⟨_, h.edge.edge, fun n => (runCycles_succ_next c1).trans (runCycles_succ_next c2), fun k hk => ?_⟩
  match k, hk with
  | 0, _ => exact ⟨p, rfl, h.running⟩
  | 1, _ => exact ⟨_, runCycles_succ_next c1, h.edge.running⟩

/-- The pipeline halts in cycle `c` and not before, with the results of `t`. -/
def HaltsAfter (c : Nat) (t p : State) : Prop :=
  (∃ u, runCycles c p = .next u ∧ Claims.SameResults t u) ∧
    ∀ k, k < c → ∃ v, runCycles k p = .next v ∧ v.halted = false

theorem RunsTo.haltsAfter {d c : Nat} {t p q : State} (hd : RunsTo d p q) (h : HaltsAfter c t q) :
    HaltsAfter (c + d) t p := by
  obtain ⟨⟨u, hu, hres⟩, hbefore⟩ := h
  refine ⟨⟨u, (hd.reach c).trans hu, hres⟩, fun k hk => ?_⟩
  by_cases hkd : k < d
  · exact hd.running k hkd
  · obtain ⟨j, rfl⟩ : ∃ j, k = j + d := ⟨k - d, by omega⟩
    rw [hd.reach]
    exact hbefore j (by omega)

theorem Sim.haltsAfter_halt {t p : State} (h : Sim t p) (hf : t.fetch = .ok .halt) : HaltsAfter 3 t.halt p := by
  obtain ⟨q, hq, hregs, hdmem, himem, hhalted, hbefore⟩ := h.halt_sim hf
  exact ⟨⟨q, hq, hregs, hdmem, himem, hhalted⟩, hbefore⟩

/-- The cycles of R170 from the one in which the first instruction is in EX. -/
def RunCount.cyclesFromEx (c : RunCount) : Nat := c.executed + 2 + c.loadUse + 2 * c.taken

theorem RunCount.cycles_eq (c : RunCount) : c.cycles = c.cyclesFromEx + 2 := by
  simp only [RunCount.cycles, RunCount.cyclesFromEx]
  omega

theorem tally_halted {t : State} (h : t.halted = true) (n : Nat) : tally n t = ⟨0, 0, 0⟩ := by
  cases n <;> simp [tally, h]

theorem cyclesFromEx_tally_succ {t u : State} (hh : t.halted = false) (hs : step t = .next u) (n : Nat) :
    (tally (n + 1) t).cyclesFromEx = (tally n u).cyclesFromEx + stepCycles t u := by
  simp only [tally, hh, hs, RunCount.cyclesFromEx, stepCycles, Bool.false_eq_true, if_false]
  omega

theorem stepCycles_halt {t : State} (hf : t.fetch = .ok .halt) (u : State) : stepCycles t u = 1 := by
  have hpair : loadUsePair t u = false := by
    unfold loadUsePair
    rw [hf]
    cases u.fetch <;> rfl
  simp [stepCycles, hpair, State.branches, hf, State.takes]

/-- The halting run, by induction on the number of steps: HALT is the base, another instruction adds its cycles. -/
theorem Sim.haltsAfter {n : Nat} {t u p : State} (h : Sim t p) (ht : t.halted = false) (hn : HaltsWithin n t u) :
    HaltsAfter (tally n t).cyclesFromEx u p := by
  obtain ⟨hrun, hhalted⟩ := hn
  induction n generalizing t p with
  | zero => cases hrun; simp [ht] at hhalted
  | succ n ih =>
    obtain ⟨v, hv, hrest⟩ := runSteps_succ_cases hrun
    rw [cyclesFromEx_tally_succ ht hv]
    obtain ⟨r, -, hs⟩ | ⟨hf, hs⟩ | ⟨i, w, hf, hi, hw, hs, hwr⟩ := step_running_cases ht <;> rw [hs] at hv
    case inl => exact absurd hv (stopFor_ne_next r v)
    case inr.inl =>
      cases hv
      rw [runSteps_halted rfl] at hrest
      cases hrest
      rw [tally_halted rfl, stepCycles_halt hf]
      exact h.haltsAfter_halt hf
    case inr.inr =>
      cases hv
      obtain ⟨q, hq, hd⟩ := h.runsTo_step hf hi hw
      exact hd.haltsAfter (ih hq hwr hrest)

/-- Settles O55: the two cycles that fill the pipeline, then the cycles of every instruction up to HALT. -/
theorem pipelineMatchesTheSequentialRun : Obligations.PipelineMatchesTheSequentialRun := by
  unfold Obligations.PipelineMatchesTheSequentialRun
  intro n s t hempty hrunning hn
  obtain ⟨q, hq, hfill⟩ := (refilling_of_empty hempty hrunning).runsTo_sim
  rw [RunCount.cycles_eq]
  exact hfill.haltsAfter (hq.haltsAfter hrunning hn)

/-- A stop of the sequential run is reached in EX. -/
theorem Sim.reaches_stop {n : Nat} {t p : State} {o : Host.Outcome State Fault Refusal} (h : Sim t p)
    (ht : t.halted = false) (hn : runSteps n t = o) (ho : ∀ u, o ≠ .next u) : ∃ k, runCycles k p = o := by
  induction n generalizing t p with
  | zero => exact absurd hn.symm (ho t)
  | succ n ih =>
    obtain ⟨r, hf, hs⟩ | ⟨-, hs⟩ | ⟨i, u, hf, hi, hu, hs, hur⟩ := step_running_cases ht
    · rw [runSteps_succ_stopFor hs] at hn
      exact ⟨1, (runCycles_succ_stopFor (h.cycle_reserved hf) 0).trans hn⟩
    · rw [runSteps_succ_next hs, runSteps_halted rfl] at hn
      exact absurd hn.symm (ho _)
    · rw [runSteps_succ_next hs] at hn
      obtain ⟨q, hq, hd⟩ := h.runsTo_step hf hi hu
      obtain ⟨k, hk⟩ := ih hq hur hn
      exact ⟨k + stepCycles t u, (hd.reach k).trans hk⟩

/-- Settles O56: behind the two cycles that fill the pipeline, the stop is reached in EX. -/
theorem pipelineStopsWhereTheSequentialRunStops : Obligations.PipelineStopsWhereTheSequentialRunStops := by
  unfold Obligations.PipelineStopsWhereTheSequentialRunStops
  intro n s hempty hrunning
  obtain ⟨q, hq, hfill⟩ := (refilling_of_empty hempty hrunning).runsTo_sim
  have key : ∀ o, runSteps n s = o → (∀ u, o ≠ .next u) → ∃ k, runCycles k s = o := fun o hn ho => by
    obtain ⟨k, hk⟩ := hq.reaches_stop hrunning hn ho
    exact ⟨k + 2, (hfill.reach k).trans hk⟩
  exact ⟨fun f hf => key _ hf (fun u hu => by cases hu), fun r hr => key _ hr (fun u hu => by cases hu)⟩

/-- The outcome ends a run: a stop, or a halted machine. -/
def Ended (o : Host.Outcome State Fault Refusal) : Prop := ∀ u, o = .next u → u.halted = true

/-- Two runs that end in one way: both halted with the same results, or both at the same stop. -/
def SameEnd (o o' : Host.Outcome State Fault Refusal) : Prop :=
  (∃ t u, o = .next t ∧ o' = .next u ∧ t.halted = true ∧ Claims.SameResults t u) ∨
    ∃ r, o = stopFor r ∧ o' = stopFor r

theorem SameEnd.halted {o : Host.Outcome State Fault Refusal} {u : State} (h : SameEnd o (.next u)) :
    ∃ t, o = .next t ∧ t.halted = true ∧ Claims.SameResults t u := by
  obtain ⟨t, v, ho, hv, hh, hres⟩ | ⟨r, -, hr⟩ := h
  · cases hv
    exact ⟨t, ho, hh, hres⟩
  · exact absurd hr.symm (stopFor_ne_next r u)

theorem SameEnd.stopped {o o' : Host.Outcome State Fault Refusal} (h : SameEnd o o') (ho : ∀ u, o' ≠ .next u) :
    o = o' := by
  obtain ⟨t, u, -, hu, -⟩ | ⟨r, hr, hr'⟩ := h
  · exact absurd hu (ho u)
  · exact hr.trans hr'.symm

/-- A run that has ended is past every stretch in which the pipeline does not halt. -/
theorem RunsTo.of_ended {d k : Nat} {p q : State} (hd : RunsTo d p q) (he : Ended (runCycles k p)) :
    ∃ j, k = j + d ∧ runCycles k p = runCycles j q := by
  by_cases hk : k < d
  · obtain ⟨v, hv, hrun⟩ := hd.running k hk
    simp [he v hv] at hrun
  · obtain ⟨j, rfl⟩ : ∃ j, k = j + d := ⟨k - d, by omega⟩
    exact ⟨j, rfl, hd.reach j⟩

theorem HaltsAfter.of_ended {c k : Nat} {t p : State} (h : HaltsAfter c t p) (ht : t.halted = true)
    (he : Ended (runCycles k p)) : ∃ u, runCycles k p = .next u ∧ Claims.SameResults t u := by
  obtain ⟨⟨u, hu, hres⟩, hbefore⟩ := h
  by_cases hk : k < c
  · obtain ⟨v, hv, hrun⟩ := hbefore k hk
    simp [he v hv] at hrun
  · obtain ⟨j, rfl⟩ : ∃ j, k = j + c := ⟨k - c, by omega⟩
    exact ⟨u, (runCycles_add hu j).trans (runCycles_halted (hres.halted.trans ht) j), hres⟩

/-- Where the pipeline's run ends, by induction on its length: every instruction takes at least one cycle of it. -/
theorem Sim.end_of_ended {k : Nat} {t p : State} (h : Sim t p) (ht : t.halted = false)
    (he : Ended (runCycles k p)) : ∃ n, SameEnd (runSteps n t) (runCycles k p) := by
  induction k using Nat.strong_induction_on generalizing t p with
  | _ k ih =>
    obtain ⟨r, hf, hs⟩ | ⟨hf, hs⟩ | ⟨i, u, hf, hi, hu, hs, hur⟩ := step_running_cases ht
    · cases k with
      | zero => have := he p rfl; simp [h.running] at this
      | succ k =>
        exact ⟨1, .inr ⟨r, runSteps_succ_stopFor hs 0, runCycles_succ_stopFor (h.cycle_reserved hf) k⟩⟩
    · obtain ⟨u, hu, hres⟩ := (h.haltsAfter_halt hf).of_ended rfl he
      exact ⟨1, .inl ⟨t.halt, u, runSteps_succ_next hs, hu, rfl, hres⟩⟩
    · obtain ⟨q, hq, hd⟩ := h.runsTo_step hf hi hu
      obtain ⟨j, rfl, hj⟩ := hd.of_ended he
      rw [hj] at he ⊢
      obtain ⟨n, hn⟩ := ih j (by simp [stepCycles]) hq hur he
      exact ⟨n + 1, by rwa [runSteps_succ_next hs]⟩

/-- Settles O57: a run that has ended is past the filling of the pipeline, and ends as Sim.end_of_ended says. -/
theorem pipelineEndsOnlyWhereTheSequentialRunEnds : Obligations.PipelineEndsOnlyWhereTheSequentialRunEnds := by
  unfold Obligations.PipelineEndsOnlyWhereTheSequentialRunEnds
  intro k s hempty hrunning
  obtain ⟨q, hq, hfill⟩ := (refilling_of_empty hempty hrunning).runsTo_sim
  have key : ∀ o, runCycles k s = o → Ended o → ∃ n, SameEnd (runSteps n s) o := by
    rintro o rfl he
    obtain ⟨j, -, hj⟩ := hfill.of_ended he
    rw [hj] at he ⊢
    exact hq.end_of_ended hrunning he
  refine ⟨fun u hu hh => ?halts, fun f hf => ?faults, fun r hr => ?refused⟩
  case halts =>
    obtain ⟨n, hn⟩ := key _ hu (fun v hv => by cases hv; exact hh)
    obtain ⟨t, ht, hth, hres⟩ := hn.halted
    exact ⟨n, t, ⟨ht, hth⟩, hres⟩
  case faults =>
    obtain ⟨n, hn⟩ := key _ hf (fun v hv => by cases hv)
    exact ⟨n, hn.stopped (fun v hv => by cases hv)⟩
  case refused =>
    obtain ⟨n, hn⟩ := key _ hr (fun v hv => by cases hv)
    exact ⟨n, hn.stopped (fun v hv => by cases hv)⟩

end Sys2Proof.Machine

/-! The stores of a run (spec/20_memory.md R42, R49): what one step adds to them, what they make of the data memory, and
the HALT that a run ends in (spec/10_state.md R29). -/

namespace Sys2Proof.Machine

open Claims

/-- The memory behind a store, if there is one. -/
def storeInto (m : Memory) : Option (Nat × Word) → Memory
  | none        => m
  | some (a, v) => m.write a v

theorem exec_dmem {i : Instr} {s t : State} (h : exec i s = .next t) : t.dmem = storeInto s.dmem (storeOf s i) := by
  obtain ⟨-, hd | ⟨sr, base, off, rfl, hd⟩, -, -, -⟩ := exec_changes h
  · cases i with
    | sw sr base off => cases h; rfl
    | _ => exact hd
  · exact hd

/-- A store of an instruction keeps the data memory in canonical form. -/
theorem wf_exec_dmem {i : Instr} {s t : State} (hs : s.dmem.wf = true) (h : exec i s = .next t) :
    t.dmem.wf = true := by
  obtain ⟨-, hd | ⟨sr, base, off, -, hd⟩, -, -, -⟩ := exec_changes h <;> rw [hd]
  · exact hs
  · exact Memory.wf_write_index hs _ _

theorem read_storeInto {m : Memory} (hm : m.wf = true) (o : Option (Nat × Word)) (a : Nat) :
    Memory.read (storeInto m o) a = lastStored a (Memory.read m a) o.toList := by
  cases o with
  | none => rfl
  | some e =>
    obtain ⟨k, v⟩ := e
    show Memory.read (m.write k v) a = if k = a then v else Memory.read m a
    simp only [Memory.read_write hm, eq_comm]

theorem lastStored_append (a : Nat) (d : Word) (xs ys : List (Nat × Word)) :
    lastStored a d (xs ++ ys) = lastStored a (lastStored a d xs) ys := by
  induction xs generalizing d with
  | nil => rfl
  | cons e xs ih => exact ih _

section StepStore
variable {s t : State}

theorem stepStore_halted (h : s.halted = true) : stepStore s = none := by simp [stepStore, h]

theorem stepStore_ok {i : Instr} (hh : s.halted = false) (hf : s.fetch = .ok i) : stepStore s = storeOf s i := by
  simp [stepStore, hh, hf]

theorem step_dmem (h : step s = .next t) : t.dmem = storeInto s.dmem (stepStore s) := by
  obtain ⟨hh, rfl⟩ | ⟨i, hh, hf, hx⟩ := step_next_cases h
  · rw [stepStore_halted hh]; rfl
  · rw [stepStore_ok hh hf]; exact exec_dmem hx

theorem wf_step_dmem (hs : s.dmem.wf = true) (h : step s = .next t) : t.dmem.wf = true := by
  obtain ⟨-, rfl⟩ | ⟨i, -, -, hx⟩ := step_next_cases h
  · exact hs
  · exact wf_exec_dmem hs hx

theorem storesOf_succ (h : step s = .next t) (n : Nat) :
    storesOf (n + 1) s = (stepStore s).toList ++ storesOf n t := by simp only [storesOf, h]

theorem storesOf_snoc {n : Nat} {u : State} (h : runSteps n s = .next t) (hu : step t = .next u) :
    storesOf (n + 1) s = storesOf n s ++ (stepStore t).toList := by
  induction n generalizing s with
  | zero => cases h; rw [storesOf_succ hu]; simp [storesOf]
  | succ n ih =>
    obtain ⟨v, hv, hr⟩ := runSteps_succ_cases h
    rw [storesOf_succ hv, ih hr, storesOf_succ hv, List.append_assoc]

theorem cycleStore_halted (h : s.halted = true) : cycleStore s = none := by simp [cycleStore, h]

theorem cycleStoresOf_succ (h : cycle s = .next t) (k : Nat) :
    cycleStoresOf (k + 1) s = (cycleStore s).toList ++ cycleStoresOf k t := by simp only [cycleStoresOf, h]

theorem cycleStoresOf_snoc {k : Nat} {u : State} (h : runCycles k s = .next t) (hu : cycle t = .next u) :
    cycleStoresOf (k + 1) s = cycleStoresOf k s ++ (cycleStore t).toList := by
  induction k generalizing s with
  | zero => cases h; rw [cycleStoresOf_succ hu]; simp [cycleStoresOf]
  | succ k ih =>
    obtain ⟨v, hv, hr⟩ := runCycles_succ_cases h
    rw [cycleStoresOf_succ hv, ih hr, cycleStoresOf_succ hv, List.append_assoc]

end StepStore

/-- Settles O38: by induction on the run, its first store is behind the first step and the others are later. -/
theorem everyWordIsTheLatestStoreOrTheImage : Obligations.EveryWordIsTheLatestStoreOrTheImage := by
  unfold Obligations.EveryWordIsTheLatestStoreOrTheImage
  intro n s t hwf h a
  induction n generalizing s with
  | zero => cases h; rfl
  | succ n ih =>
    obtain ⟨u, hu, hr⟩ := runSteps_succ_cases h
    rw [storesOf_succ hu, lastStored_append, ← read_storeInto hwf, ← step_dmem hu]
    exact ih u (wf_step_dmem hwf hu) hr

/-- Settles O35: a step and a cycle of a halted machine answer the same state, so any number of them does. -/
theorem haltedMachineChangesNothing : Obligations.HaltedMachineChangesNothing := by
  unfold Obligations.HaltedMachineChangesNothing
  exact fun n s h => ⟨runSteps_halted h n, runCycles_halted h n⟩

/-- A step of a running machine halts it exactly when it runs a HALT, and then does nothing else. -/
theorem step_halts_iff {s t : State} (hs : s.halted = false) (h : step s = .next t) :
    t.halted = true ↔ s.fetch = .ok .halt ∧ t = s.halt := by
  obtain ⟨r, -, hr⟩ | ⟨hf, hn⟩ | ⟨i, u, hf, hi, -, hn, hrun⟩ := step_running_cases hs
  · exact absurd (hr.symm.trans h) (stopFor_ne_next r t)
  · obtain rfl : s.halt = t := by simpa using hn.symm.trans h
    simp [hf]
  · obtain rfl : u = t := by simpa using hn.symm.trans h
    simp [hf, hi, hrun]

/-- The HALT of a run that ends halted: it is the run's last instruction and stores nothing. -/
theorem halting_step {n : Nat} {s t : State} (hs : s.halted = false) (h : runSteps n s = .next t)
    (ht : t.halted = true) : ∃ k u, k < n ∧ runSteps k s = .next u ∧ u.halted = false ∧ u.fetch = .ok .halt ∧
      t = u.halt ∧ storesOf n s = storesOf k s := by
  induction n generalizing t with
  | zero => cases h; simp [hs] at ht
  | succ n ih =>
    obtain ⟨v, hv, hst⟩ := runSteps_snoc_cases h
    rw [storesOf_snoc hv hst]
    cases hh : v.halted with
    | true =>
      obtain rfl : v = t := by simpa using (step_halted hh).symm.trans hst
      obtain ⟨k, u, hk, hu, hrest⟩ := ih hv hh
      exact ⟨k, u, by omega, hu, by simpa [stepStore_halted hh] using hrest⟩
    | false =>
      obtain ⟨hf, rfl⟩ := (step_halts_iff hh hst).mp ht
      exact ⟨n, v, by omega, hv, hh, hf, rfl, by simp [stepStore_ok hh hf, storeOf]⟩

/-- Settles O36: a running step halts only by HALT, and the run is cut at that step. -/
theorem onlyHaltEndsARun : Obligations.OnlyHaltEndsARun := by
  unfold Obligations.OnlyHaltEndsARun
  constructor
  · intro s t hs h
    rw [step_halts_iff hs h, and_iff_left_iff_imp]
    intro hf
    have hn : exec .halt s = .next t := (step_ok hs hf).symm.trans h
    simpa [exec_halt, eq_comm] using hn
  · intro n s t hs h ht
    obtain ⟨k, u, hk, hu, hrun, hf, rfl, -⟩ := halting_step hs h ht
    exact ⟨k, u, hk, hu, hrun, hf, rfl, rfl, rfl, rfl⟩

end Sys2Proof.Machine

/-! The states that the pipeline passes through (spec/70_reset_and_hazards.md R166; D13, D19). Tracks says which two
sequential states a pipeline state shows in its next cycle, and one cycle moves it on by at most one instruction. -/

namespace Sys2Proof.Machine

open Claims

/-- What WB holds behind a cycle is what was in flight before it. -/
theorem Phase.wbRegs_next {t p q : State} (h : Phase t p) (hq : cycle p = .next q) (hh : q.halted = false) :
    q.wbRegs = t.regs := by
  obtain ⟨hp, rfl⟩ | ⟨hp, -, rfl⟩ := cycle_next_cases hq
  · simp [hh] at hp
  · rw [State.wbRegs_edge]
    exact (h.flight hp).1

/-- The store that the instruction issued at `t` makes in MEM is the one of its step. -/
theorem cycleStore_issued {t p : State} {i : Instr} (ht : t.halted = false) (hf : t.fetch = .ok i)
    (hde : p.pipe.de = t.issued) (hp : p.clockEdge.halted = false) : cycleStore p.clockEdge = stepStore t := by
  have hfw : decode t.fetchWord = .ok i := hf
  have hem : p.clockEdge.pipe.em = t.issued.execute := congrArg DecodeBuffer.execute hde
  rw [stepStore_ok ht hf, cycleStore, hp, hem, issued_ok hf]
  cases i with
  | sw sr base off => rw [imm_of_decode.2.2.2.2 hfw]; rfl
  | _ => rfl

theorem cycleStore_none {p : State} (h : p.halted = true ∨ p.pipe.em.op ≠ .sw) : cycleStore p = none := by
  obtain h | h := h <;> simp [cycleStore, h]

/-- The cycle in which an instruction other than HALT is in EX leaves the pipeline at the next sequential state. -/
theorem Sim.phase_edge {t u p : State} {i : Instr} (h : Sim t p) (hf : t.fetch = .ok i) (hi : i ≠ .halt)
    (hu : exec i t = .next u) : Phase u p.clockEdge := by
  cases ht : t.takes i with
  | true => exact .refilling (h.taken_edge hf hi hu ht)
  | false =>
    cases hs : p.idStalls with
    | true => exact .ready (h.stall_edge hf hi hu ht hs)
    | false => exact .sim (h.plain_edge hf hi hu ht hs)

theorem Behind.running_edge {t p : State} (h : Behind t p) : p.clockEdge.halted = false := by
  simp [State.clockEdge, h.running, h.mw]

/-- Where two more instructions follow, two cycles do. -/
theorem Sim.cycle_edge {t u w p : State} (h : Sim t p) (ht : t.halted = false) (hu : step t = .next u)
    (hw : step u = .next w) : cycle p = .next p.clockEdge ∧ ∃ q, cycle p.clockEdge = .next q := by
  obtain ⟨r, -, hs⟩ | ⟨hf, -⟩ | ⟨i, x, hf, hi, hx, hs, hxr⟩ := step_running_cases ht
  · exact absurd (hs.symm.trans hu) (stopFor_ne_next r u)
  · exact ⟨h.cycle_eq hf, _, (h.drain_edge hf).cycle_eq⟩
  · obtain rfl : x = u := by simpa using hs.symm.trans hu
    refine ⟨h.cycle_eq hf, ?_⟩
    cases h.phase_edge hf hi hx with
    | refilling h => exact ⟨_, h.toBehind.bubble_cycle h.bubble⟩
    | ready h => exact ⟨_, h.toBehind.bubble_cycle h.bubble⟩
    | draining h _ => exact ⟨_, h.cycle_eq⟩
    | halted h _ => exact ⟨_, cycle_halted h⟩
    | sim h =>
      obtain ⟨hh, -⟩ | ⟨j, -, hj, -⟩ := step_next_cases hw
      · simp [hxr] at hh
      · exact ⟨_, h.cycle_eq hj⟩

/-- A bubble that goes from EX to MEM stores nothing. -/
theorem DecodeBuffer.Bubble.no_store {p : State} (hb : p.pipe.de.Bubble) : p.clockEdge.pipe.em.op ≠ .sw := by
  show p.pipe.de.op ≠ .sw
  simp [hb.op]

/-- Behind `k` cycles from `s` the pipeline is at `p`, about to write back what makes the registers of `t`, the state
after `m` steps, and to finish in MEM what makes the data memory of `v`, the state after `n` steps. -/
structure Tracks (s : State) (k : Nat) (p : State) (m n : Nat) (t v : State) : Prop where
  here    : runCycles k s = .next p
  early   : runSteps m s = .next t
  late    : runSteps n s = .next v
  order   : m ≤ n
  bound   : n ≤ k
  running : v.halted = false
  wb      : p.halted = false → p.wbRegs = t.regs
  phase   : Phase v p
  stores  : cycleStoresOf k s ++ (cycleStore p).toList = storesOf n s

theorem Tracks.start {s : State} (he : s.pipe = Pipeline.empty) (hh : s.halted = false) : Tracks s 0 s 0 0 s s where
  here := rfl
  early := rfl
  late := rfl
  order := le_rfl
  bound := le_rfl
  running := hh
  wb _ := by simp [State.wbRegs_eq, he, Pipeline.empty, MemBuffer.noop]
  phase := .refilling (refilling_of_empty he hh)
  stores := by
    rw [cycleStore_none (.inr (by simp [he, Pipeline.empty, ExecBuffer.noop]))]
    rfl

section Tracks
variable {s p q t v : State} {k m n : Nat}

/-- A cycle in which no instruction leaves EX. -/
theorem Tracks.stay (h : Tracks s k p m n t v) (hq : cycle p = .next q) (hp : Phase v q)
    (hno : q.halted = true ∨ q.pipe.em.op ≠ .sw) : Tracks s (k + 1) q n n v v where
  here := runCycles_snoc h.here hq
  early := h.late
  late := h.late
  order := le_rfl
  bound := Nat.le_succ_of_le h.bound
  running := h.running
  wb := h.phase.wbRegs_next hq
  phase := hp
  stores := by rw [cycleStoresOf_snoc h.here hq, h.stores, cycleStore_none hno]; simp

/-- A cycle in which the instruction at the pc of `v` leaves EX. -/
theorem Tracks.go {i : Instr} {u : State} (h : Tracks s k p m n t v) (hq : cycle p = .next p.clockEdge)
    (hf : v.fetch = .ok i) (hi : i ≠ .halt) (hu : exec i v = .next u) (hde : p.pipe.de = v.issued)
    (hp : Phase u p.clockEdge) (hh : p.clockEdge.halted = false) : Tracks s (k + 1) p.clockEdge n (n + 1) v u where
  here := runCycles_snoc h.here hq
  early := h.late
  late := runSteps_snoc h.late ((step_ok h.running hf).trans hu)
  order := Nat.le_succ n
  bound := Nat.succ_le_succ h.bound
  running := (exec_running hu hi).trans h.running
  wb := h.phase.wbRegs_next hq
  phase := hp
  stores := by
    rw [cycleStoresOf_snoc h.here hq, h.stores, cycleStore_issued h.running hf hde hh,
      storesOf_snoc h.late ((step_ok h.running hf).trans hu)]

/-- One cycle shows what is tracked: the registers of `t`, and the data memory and the stores of `v`. -/
theorem Tracks.shown (h : Tracks s k p m n t v) (hh : p.halted = false) (hq : cycle p = .next q) :
    q.regs = t.regs ∧ q.dmem = v.dmem ∧ cycleStoresOf (k + 1) s = storesOf n s := by
  obtain ⟨hp, -⟩ | ⟨-, -, rfl⟩ := cycle_next_cases hq
  · simp [hh] at hp
  · exact ⟨h.wb hh, (h.phase.flight hh).2, (cycleStoresOf_snoc h.here hq).trans h.stores⟩

theorem Tracks.next (h : Tracks s k p m n t v) (hq : cycle p = .next q) :
    ∃ n' v', Tracks s (k + 1) q n n' v v' := by
  obtain ⟨hp, hno⟩ | ⟨i, u, hf, hi, hu, hp, hde, rfl, hh⟩ := h.phase.cycle_cases hq
  · exact ⟨n, v, h.stay hq hp hno⟩
  · exact ⟨n + 1, u, h.go hq hf hi hu hde hp hh⟩

theorem Tracks.sim_of_ready (h : Tracks s k p m n t v) (hr : Ready v p) :
    ∃ k' p' m' t', Tracks s k' p' m' n t' v ∧ Sim v p' :=
  ⟨k + 1, p.clockEdge, n, v, h.stay (hr.toBehind.bubble_cycle hr.bubble) (.sim hr.edge) (.inr hr.bubble.no_store),
    hr.edge⟩

/-- While instructions are fetched, the next one comes to EX with nothing else done before. -/
theorem Tracks.reaches_sim (h : Tracks s k p m n t v) (hb : Behind v p) :
    ∃ k' p' m' t', Tracks s k' p' m' n t' v ∧ Sim v p' := by
  cases h.phase with
  | refilling hr =>
    exact (h.stay (hr.toBehind.bubble_cycle hr.bubble) (.ready hr.edge) (.inr hr.bubble.no_store)).sim_of_ready hr.edge
  | ready hr => exact h.sim_of_ready hr
  | sim hs => exact ⟨k, p, m, t, h, hs⟩
  | draining hd _ => have := hb.fetching; simp [hd.draining] at this
  | halted hp _ => have := hb.running; simp [hp] at this

end Tracks

section Empty
variable {s : State} (he : s.pipe = Pipeline.empty) (hh : s.halted = false)
include he hh

theorem tracks_of_runCycles {k : Nat} {p : State} (h : runCycles k s = .next p) :
    ∃ m n t v, Tracks s k p m n t v := by
  induction k generalizing p with
  | zero => cases h; exact ⟨0, 0, s, s, .start he hh⟩
  | succ k ih =>
    obtain ⟨q, hq, hp⟩ := runCycles_snoc_cases h
    obtain ⟨m, n, t, v, ht⟩ := ih hq
    obtain ⟨n', v', ht'⟩ := ht.next hp
    exact ⟨n, n', v, v', ht'⟩

/-- After any number of cycles the pipeline shows sequential states. -/
theorem shows_sequential {k : Nat} {u : State} (h : runCycles k s = .next u) : ∃ m n t v, m ≤ n ∧ n ≤ k ∧
    runSteps m s = .next t ∧ u.regs = t.regs ∧ runSteps n s = .next v ∧ u.dmem = v.dmem ∧
      cycleStoresOf k s = storesOf n s := by
  induction k generalizing u with
  | zero => cases h; exact ⟨0, 0, s, s, le_rfl, le_rfl, rfl, rfl, rfl, rfl, rfl⟩
  | succ k ih =>
    obtain ⟨p, hp, hu⟩ := runCycles_snoc_cases h
    cases hph : p.halted with
    | true =>
      obtain rfl : p = u := by simpa using (cycle_halted hph).symm.trans hu
      obtain ⟨m, n, t, v, hmn, hnk, ht, hregs, hv, hdmem, hstores⟩ := ih hp
      refine ⟨m, n, t, v, hmn, Nat.le_succ_of_le hnk, ht, hregs, hv, hdmem, ?_⟩
      simpa [cycleStoresOf_snoc hp hu, cycleStore_halted hph] using hstores
    | false =>
      obtain ⟨m, n, t, v, htr⟩ := tracks_of_runCycles he hh hp
      obtain ⟨hregs, hdmem, hstores⟩ := htr.shown hph hu
      exact ⟨m, n, t, v, htr.order, Nat.le_succ_of_le htr.bound, htr.early, hregs, htr.late, hdmem, hstores⟩

/-- Every running sequential state has its next instruction in EX at some time. -/
theorem tracks_of_runSteps {n : Nat} {t : State} (h : runSteps n s = .next t) (ht : t.halted = false) :
    ∃ k p m t', Tracks s k p m n t' t ∧ Sim t p := by
  induction n generalizing t with
  | zero => cases h; exact (Tracks.start he hh).reaches_sim (refilling_of_empty he hh).toBehind
  | succ n ih =>
    obtain ⟨x, hx, hst⟩ := runSteps_snoc_cases h
    obtain ⟨hxh, rfl⟩ | ⟨i, hxh, hf, hu⟩ := step_next_cases hst
    · simp [ht] at hxh
    · have hi : i ≠ .halt := by rintro rfl; cases hu; simp at ht
      obtain ⟨k, p, m, t', htr, hsim⟩ := ih hx hxh
      have hq := hsim.cycle_eq hf
      have hb := hsim.behind_edge hf hi hu
      have hnext := htr.go (hsim.cycle_eq hf) hf hi hu hsim.de (hsim.phase_edge hf hi hu) hb.running
      exact hnext.reaches_sim hb

/-- A running sequential state that two more instructions follow is shown: the cycle with its next instruction in EX
shows its data memory, and the cycle behind that its registers. -/
theorem shown_of_running {n : Nat} {t w : State} (ht : runSteps n s = .next t) (hrun : t.halted = false)
    (hw : runSteps (n + 2) s = .next w) : ∃ k u v, runCycles k s = .next u ∧ u.dmem = t.dmem ∧
      cycleStoresOf k s = storesOf n s ∧ runCycles (k + 1) s = .next v ∧ v.regs = t.regs := by
  obtain ⟨k, p, m, t', htr, hsim⟩ := tracks_of_runSteps he hh ht hrun
  obtain ⟨x, hx, hxw⟩ := runSteps_snoc_cases hw
  obtain ⟨y, hy, hyx⟩ := runSteps_snoc_cases hx
  obtain rfl : t = y := by simpa using ht.symm.trans hy
  obtain ⟨hq, r, hr⟩ := hsim.cycle_edge hrun hyx hxw
  obtain ⟨-, hdmem, hstores⟩ := htr.shown hsim.running hq
  obtain ⟨n', v', hnext⟩ := htr.next hq
  obtain ⟨hregs, -, -⟩ := hnext.shown hsim.running_edge hr
  exact ⟨k + 1, p.clockEdge, r, runCycles_snoc htr.here hq, hdmem, hstores,
    runCycles_snoc (runCycles_snoc htr.here hq) hr, hregs⟩

end Empty

/-- Settles O58: what is tracked is shown; a state that a HALT has ended is shown as the state before that HALT. -/
theorem pipelinePassesThroughTheSequentialStates : Obligations.PipelinePassesThroughTheSequentialStates := by
  unfold Obligations.PipelinePassesThroughTheSequentialStates
  intro s he hh
  refine ⟨fun k u h => shows_sequential he hh h, fun n t w ht hw => ?_⟩
  cases hrun : t.halted with
  | false => exact shown_of_running he hh ht hrun hw
  | true =>
    obtain ⟨j, x, -, hx, hxrun, hf, rfl, hstores⟩ := halting_step hh ht hrun
    have hhalt := runSteps_snoc hx (step_ok hxrun hf)
    have hshown := shown_of_running he hh hx hxrun (runSteps_snoc hhalt (step_halted rfl))
    rw [hstores]
    exact hshown

end Sys2Proof.Machine

/-! The invariant (spec/10_state.md R21; log entry 1): it holds at reset, every launch and every step and cycle keeps
it. -/

namespace Sys2Proof.Machine

theorem exec_keeps_inv {i : Instr} {s t : State} (hs : s.Inv) (h : exec i s = .next t) : t.Inv := by
  obtain ⟨hzero, himem, hdmem⟩ := hs
  obtain ⟨hregs, -, -, hi, -⟩ := exec_changes h
  refine ⟨?_, hi ▸ himem, wf_exec_dmem hdmem h⟩
  obtain ⟨-, hr⟩ | ⟨r, v, -, hr⟩ := hregs <;> simpa [hr] using hzero

/-- Settles O43: a step that answers a next state is a halted one, or runs an instruction, which keeps the invariant. -/
theorem stepKeepsTheInvariant : Obligations.StepKeepsTheInvariant := by
  unfold Obligations.StepKeepsTheInvariant
  intro s t hs h
  obtain ⟨-, rfl⟩ | ⟨i, -, -, hx⟩ := step_next_cases h
  · exact hs
  · exact exec_keeps_inv hs hx

theorem State.wbRegs_slot0 (s : State) : s.wbRegs[0] = s.regs[0] := by
  rw [State.wbRegs_eq]
  split <;> simp

theorem State.wf_memDmem {s : State} (h : s.dmem.wf = true) : s.memDmem.wf = true := by
  unfold State.memDmem
  split
  · exact Memory.wf_write_index h _ _
  · exact h

/-- Settles O44: WB leaves slot 0 alone, MEM writes below 2^24, and nothing writes the instruction memory. -/
theorem cycleKeepsTheInvariant : Obligations.CycleKeepsTheInvariant := by
  unfold Obligations.CycleKeepsTheInvariant
  intro s t hs h
  obtain ⟨-, rfl⟩ | ⟨-, -, rfl⟩ := cycle_next_cases h
  · exact hs
  · obtain ⟨hzero, himem, hdmem⟩ := hs
    exact ⟨s.wbRegs_slot0.trans hzero, himem, State.wf_memDmem hdmem⟩

theorem launch_inv (init : RegFile) {image : Memory} (h : image.wf = true) : (State.launch init image).Inv :=
  ⟨by simp [State.launch], h, h⟩

/-- Settles O42: the launch forces slot 0 to zero and takes the image for both memories. -/
theorem resetAndLaunchMeetTheInvariant : Obligations.ResetAndLaunchMeetTheInvariant := by
  unfold Obligations.ResetAndLaunchMeetTheInvariant
  exact ⟨⟨by simp [State.reset], rfl, rfl⟩, fun init image h => launch_inv init h⟩

theorem launch_readReg (init : RegFile) (image : Memory) {r : RegNum} (h : r ≠ 0) :
    (State.launch init image).readReg r = init[r.val] := by
  have hv : 0 ≠ r.val := fun e => h (Fin.ext e.symm)
  simp [State.launch, State.readReg, RegFile.read, h, Vector.getElem_set_ne, hv]

/-- Settles O41: the fields of a launch state, and forcing slot 0 of a zero file changes nothing. -/
theorem launchStateIsTheResetTable : Obligations.LaunchStateIsTheResetTable := by
  unfold Obligations.LaunchStateIsTheResetTable
  constructor
  · rintro init image s rfl
    exact ⟨State.readReg_zero _, fun r hr => launch_readReg init image hr, rfl, rfl, rfl, rfl, rfl⟩
  · decide

end Sys2Proof.Machine

/-! The memories (spec/20_memory.md R41 to R43, R47): addresses are cut on access, the canonical form is determined by
what it reads, and a loaded program stands word by word. -/

namespace Sys2Proof.Machine

theorem memIndex_eq_iff (a b : Word) : memIndex a = memIndex b ↔ a.extractLsb' 0 24 = b.extractLsb' 0 24 :=
  BitVec.toNat_inj

theorem State.memRead_eq (s : State) (a : Word) : s.memRead a = Memory.read s.dmem (a.toNat % 2 ^ 24) := by
  rw [State.memRead, memIndex_eq_mod]

theorem State.ifetch_eq_read (s : State) (a : Word) : s.ifetch a = Memory.read s.imem (a.toNat % 2 ^ 24) := by
  rw [State.ifetch, memIndex_eq_mod]

theorem State.memRead_memWrite {s : State} (h : s.dmem.wf = true) (a b v : Word) : (s.memWrite a v).memRead b =
    if b.extractLsb' 0 24 = a.extractLsb' 0 24 then v else s.memRead b := by
  rw [State.memRead, State.memWrite_dmem, Memory.read_write h]
  simp only [memIndex_eq_iff, State.memRead]

/-- Settles O29: read after write of the canonical data memory at the index of the address. -/
theorem dataMemoryReadsBackWhatWasWritten : Obligations.DataMemoryReadsBackWhatWasWritten := by
  unfold Obligations.DataMemoryReadsBackWhatWasWritten
  intro s a b v h
  exact ⟨s.memRead_eq b, State.memRead_memWrite h a b v, Memory.wf_write_index h a v, rfl, rfl, rfl, rfl, rfl⟩

/-- Settles O28: an address acts through its index alone, and LEA writes the sum itself. -/
theorem addressesAreTruncatedOnAccessOnly : Obligations.AddressesAreTruncatedOnAccessOnly := by
  unfold Obligations.AddressesAreTruncatedOnAccessOnly
  refine ⟨fun s a b v h => ?access, State.memRead_eq, State.ifetch_eq_read, fun dr off s hdr => ?lea⟩
  case access =>
    have hi : memIndex a = memIndex b := by rw [memIndex_eq_mod, memIndex_eq_mod, h]
    exact ⟨congrArg s.dmem.read hi, by rw [State.memWrite, State.memWrite, hi]⟩
  case lea =>
    refine ⟨_, exec_lea s dr off, ?_⟩
    rw [State.advance_readReg, State.readReg_writeReg, if_pos ⟨rfl, hdr⟩]
    rfl

/-- The first key of a canonical memory is no later than that of another with the same word there. -/
theorem Memory.first_key_le {lo lo' k k' : Nat} {v v' : Word} {m m' : Memory}
    (h : Memory.wfFrom lo ((k, v) :: m) = true) (h' : Memory.wfFrom lo' ((k', v') :: m') = true)
    (heq : Memory.read ((k, v) :: m) k = Memory.read ((k', v') :: m') k) : k' ≤ k := by
  obtain ⟨-, -, hv, -⟩ := Memory.wfFrom_cons.mp h
  by_contra hlt
  have hbelow : Memory.read ((k', v') :: m') k = Config.unlistedWord :=
    Memory.read_below (lo := k') (Memory.wfFrom_cons.mpr ⟨le_rfl, (Memory.wfFrom_cons.mp h').2⟩) (by omega)
  rw [hbelow, Memory.read_cons, if_pos rfl] at heq
  exact hv heq

theorem Memory.eq_of_reads {lo lo' : Nat} {m m' : Memory} (hm : Memory.wfFrom lo m = true)
    (hm' : Memory.wfFrom lo' m' = true) (h : ∀ a, a < Config.memWords → Memory.read m a = Memory.read m' a) :
    m = m' := by
  induction m generalizing lo lo' m' with
  | nil =>
    cases m' with
    | nil => rfl
    | cons e m' =>
      obtain ⟨-, hk, hv, -⟩ := Memory.wfFrom_cons.mp hm'
      have := h e.1 hk
      rw [Memory.read_cons, if_pos rfl] at this
      exact absurd this.symm hv
  | cons e m ih =>
    obtain ⟨k, v⟩ := e
    obtain ⟨-, hk, hv, hrest⟩ := Memory.wfFrom_cons.mp hm
    cases m' with
    | nil =>
      have := h k hk
      rw [Memory.read_cons, if_pos rfl] at this
      exact absurd this hv
    | cons e' m' =>
      obtain ⟨k', v'⟩ := e'
      obtain ⟨-, hk', -, hrest'⟩ := Memory.wfFrom_cons.mp hm'
      obtain rfl : k = k' :=
        le_antisymm (Memory.first_key_le hm' hm (h k' hk').symm) (Memory.first_key_le hm hm' (h k hk))
      have hword : v = v' := by simpa using h k hk
      have htail : ∀ a, a < Config.memWords → Memory.read m a = Memory.read m' a := fun a ha => by
        by_cases hak : k = a
        · rw [Memory.read_below hrest (by omega), Memory.read_below hrest' (by omega)]
        · simpa [hak] using h a ha
      rw [hword, ih hrest hrest' htail]

/-- Settles O39: by induction on the lists, whose first keys are the first addresses that do not read as unlisted. -/
theorem canonicalMemoriesWithEqualReadsAreEqual : Obligations.CanonicalMemoriesWithEqualReadsAreEqual := by
  unfold Obligations.CanonicalMemoriesWithEqualReadsAreEqual
  exact fun m m' hm hm' h => Memory.eq_of_reads hm hm' h

/-- A list of words loaded at `a` without wrapping: below `a` nothing changes, from `a` on the words stand in order. -/
theorem Memory.read_load {m : Memory} (hm : m.wf = true) {a : Nat} {ws : List Word}
    (h : a + ws.length ≤ Config.memWords) (b : Nat) :
    Memory.read (m.load a ws) b = if b < a then Memory.read m b else ws.getD (b - a) (Memory.read m b) := by
  induction ws generalizing m a with
  | nil => simp [Memory.load]
  | cons w ws ih =>
    rw [List.length_cons] at h
    have ha : a < Config.memWords := by omega
    rw [Memory.load, Nat.mod_eq_of_lt ha, ih (Memory.wf_write hm ha w) (by omega), Memory.read_write hm]
    obtain hb | rfl | hb := Nat.lt_trichotomy b a
    · simp [hb, Nat.lt_succ_of_lt hb, hb.ne]
    · simp
    · obtain ⟨j, rfl⟩ := Nat.exists_eq_add_of_lt hb
      have hj : a + j + 1 - a = j + 1 := by omega
      simp [hj, show ¬ a + j + 1 < a by omega, show a + j + 1 ≠ a by omega]

/-- Settles O40: the program is loaded at address 0, where no address is below. -/
theorem programImageHoldsWordIAtAddressI : Obligations.ProgramImageHoldsWordIAtAddressI := by
  unfold Obligations.ProgramImageHoldsWordIAtAddressI
  intro ws rest hrest hlen
  exact ⟨Memory.wf_load hrest 0 ws, fun a _ => Memory.read_load hrest (by rwa [Nat.zero_add]) a⟩

end Sys2Proof.Machine

/-! One clock cycle (spec/70_reset_and_hazards.md R150 to R167): the operand that forwarding delivers, the load-use
stall, the flush behind a taken branch, the draining behind a HALT, and what MEM and WB do. Every statement reads the
clock edge that a running cycle goes to, under what the front end does in it. -/

namespace Sys2Proof.Machine

open Claims

theorem regsAfterOlder_eq (s : State) : regsAfterOlder s =
    if s.pipe.de.wr then RegFile.write s.drainedRegs s.pipe.de.dst s.pipe.de.exValue else s.drainedRegs := by
  simp only [regsAfterOlder, State.drainedRegs, State.wbRegs_eq]

/-- Settles O45: State.operand_eq, which says it of every operand, stalling or not. -/
theorem forwardingDeliversTheNewestValue : Obligations.ForwardingDeliversTheNewestValue := by
  unfold Obligations.ForwardingDeliversTheNewestValue
  intro s r _
  rw [State.operand_eq, regsAfterOlder_eq]

/-! The stall. -/

section Stall
variable {s : State}

theorem operandStalls_iff (s : State) (r : RegNum) : s.operandStalls r = true ↔
    r ≠ 0 ∧ s.pipe.de.wr = true ∧ s.pipe.de.dst = r ∧ s.pipe.de.op = .lw := by
  simp [State.operandStalls, and_assoc]

theorem operandStallsOpt_iff (s : State) (o : Option RegNum) :
    s.operandStallsOpt o = true ↔ ∃ r, o = some r ∧ s.operandStalls r = true := by
  cases o <;> simp [State.operandStallsOpt]

theorem idStalls_error {r : Reject} (h : decode s.pipe.fd.insn = .error r) : s.idStalls = false := by
  simp only [State.idStalls, h]

theorem idStalls_iff {j : Instr} (h : decode s.pipe.fd.insn = .ok j) :
    s.idStalls = true ↔ ∃ r, (j.srcA = some r ∨ j.srcB = some r) ∧ s.operandStalls r = true := by
  simp only [State.idStalls, h, Bool.or_eq_true, operandStallsOpt_iff, or_and_right, exists_or]

/-- Only a LW in EX makes an instruction wait. -/
theorem lw_of_idStalls (h : s.idStalls = true) : s.pipe.de.op = .lw := by
  cases hd : decode s.pipe.fd.insn with
  | error r => simp [idStalls_error hd] at h
  | ok j =>
    obtain ⟨r, -, hr⟩ := (idStalls_iff hd).mp h
    obtain ⟨-, -, -, hop⟩ := (operandStalls_iff s r).mp hr
    exact hop

theorem idStalls_of_ne_lw (h : s.pipe.de.op ≠ .lw) : s.idStalls = false :=
  Bool.eq_false_iff.mpr fun hs => h (lw_of_idStalls hs)

theorem decodeBuffer_ok {insn : Word} {i : Instr} (h : decode insn = .ok i) (npc : Word)
    (value : Option RegNum → Word) : decodeBuffer insn npc value =
      { op := i.stageOp, srcA := i.srcA.getD 0, dst := i.dest.getD 0, wr := i.dest.isSome,
        a := value i.srcA, b := value i.srcB, imm := sext32 (immField insn), npc := npc } := by
  simp only [decodeBuffer, h]

/-- Behind an instruction in EX a source register stalls exactly when that is the LW of it. -/
theorem operandStalls_of_decoded {insn npc : Word} {value : Option RegNum → Word} {i : Instr}
    (hde : s.pipe.de = decodeBuffer insn npc value) (hi : decode insn = .ok i) (r : RegNum) :
    s.operandStalls r = true ↔ ∃ base off, i = .lw r base off ∧ r ≠ 0 := by
  rw [operandStalls_iff, hde, decodeBuffer_ok hi]
  cases i with
  | lw dr base off =>
    simp only [Instr.dest, Instr.stageOp, Option.isSome_some, Option.getD_some, Instr.lw.injEq]
    grind
  | _ => simp [Instr.stageOp]

theorem frontEnd_stall (hd : s.pipe.draining = false) (hs : s.idStalls = true) : s.frontEnd = .stall := by
  simp [State.frontEnd, hd, lw_of_idStalls hs, DecodeBuffer.taken, hs]

end Stall

/-- Settles O47: the sources of the instruction in FD against the one in EX; no stall without a LW in EX. -/
theorem stallsExactlyOnLoadUse : Obligations.StallsExactlyOnLoadUse := by
  unfold Obligations.StallsExactlyOnLoadUse
  refine ⟨fun s insn npc value i j hde hi hj => ?pair, fun s h => idStalls_of_ne_lw ?bubble,
    fun s r h => idStalls_of_ne_lw ?reserved, fun s r h => idStalls_error h⟩
  case pair =>
    simp only [idStalls_iff hj, operandStalls_of_decoded hde hi]
    constructor
    · rintro ⟨r, hr, base, off, rfl, h0⟩
      exact ⟨r, base, off, rfl, h0, hr⟩
    · rintro ⟨r, base, off, rfl, h0, hr⟩
      exact ⟨r, hr, base, off, rfl, h0⟩
  case bubble => simp [h, DecodeBuffer.noop]
  case reserved => simp [h]

/-- Settles O48: the front end stalls, since a LW is in EX, and the NOOP sent to DE ends the stall. -/
theorem stallCycleHoldsFetchAndSendsANoop : Obligations.StallCycleHoldsFetchAndSendsANoop := by
  unfold Obligations.StallCycleHoldsFetchAndSendsANoop
  intro s hh hd hs
  have hfe := frontEnd_stall hd hs
  have hde : s.clockEdge.pipe.de = .noop := by simp [State.clockEdge, State.nextDe, hfe]
  refine ⟨s.clockEdge, cycle_edge hh (by simp [lw_of_idStalls hs]), ?pc, ?fd, hde, rfl, rfl, rfl, rfl, ?halted,
    idStalls_of_ne_lw (by simp [hde, DecodeBuffer.noop])⟩
  case pc => simp [State.clockEdge, State.nextPc, hfe]
  case fd => simp [State.clockEdge, State.nextFd, hfe]
  case halted => simp [State.clockEdge, hh]

/-! The flush. -/

/-- The taken branches and their targets (R161). -/
theorem DecodeBuffer.taken_cases {de : DecodeBuffer} (h : de.taken = true) :
    (de.op = .goto ∧ de.target = de.npc + de.imm) ∨
    (de.op = .skpe ∧ de.a = de.b ∧ de.target = de.npc + 1#32) ∨
    (de.op = .skpgt ∧ de.b.toInt < de.a.toInt ∧ de.target = de.npc + 1#32) ∨
    (de.op = .jalr ∧ de.target = if de.srcA = de.dst ∧ de.dst ≠ 0 then de.npc else de.a) := by
  unfold DecodeBuffer.taken at h
  unfold DecodeBuffer.target
  cases hop : de.op <;> simp only [hop, Bool.false_eq_true] at h
  case goto => simp
  case skpe => simpa [skpEqual] using h
  case skpgt => simpa [skpGreater] using h
  case jalr => simp [DecodeBuffer.aliased]

theorem DecodeBuffer.taken_op {de : DecodeBuffer} (h : de.taken = true) :
    de.op ≠ .halt ∧ ∀ r, de.op ≠ .reserved r := by
  obtain ⟨ho, -⟩ | ⟨ho, -⟩ | ⟨ho, -⟩ | ⟨ho, -⟩ := DecodeBuffer.taken_cases h <;> simp [ho]

theorem frontEnd_flush {s : State} (hd : s.pipe.draining = false) (ht : s.pipe.de.taken = true) :
    s.frontEnd = .flush s.pipe.de.target := by
  simp [State.frontEnd, hd, (DecodeBuffer.taken_op ht).1, ht]

/-- Settles O49: the front end flushes to the target of the branch in EX. -/
theorem takenBranchCancelsTheTwoYoungerInstructions : Obligations.TakenBranchCancelsTheTwoYoungerInstructions := by
  unfold Obligations.TakenBranchCancelsTheTwoYoungerInstructions
  intro s hh hd ht
  have hfe := frontEnd_flush hd ht
  obtain ⟨hhalt, hres⟩ := DecodeBuffer.taken_op ht
  have hpc : s.clockEdge.pc = s.pipe.de.target := by simp [State.clockEdge, State.nextPc, hfe]
  refine ⟨s.clockEdge, cycle_edge hh hres, ?fd, ?de, ?draining, rfl, ?target⟩
  case fd => simp [State.clockEdge, State.nextFd, hfe]
  case de => simp [State.clockEdge, State.nextDe, hfe]
  case draining => simp [State.clockEdge, hd, hhalt]
  case target => rw [hpc]; exact DecodeBuffer.taken_cases ht

theorem frontEnd_drain {s : State} (h : s.pipe.de.op = .halt ∨ s.pipe.draining = true) : s.frontEnd = .drain := by
  rw [State.frontEnd, if_pos h.symm]

/-- Behind a taken branch and behind a HALT the front end does not look at FD or at the instruction memory. -/
theorem frontEnd_flushed {s : State}
    (h : s.pipe.de.taken = true ∨ s.pipe.de.op = .halt ∨ s.pipe.draining = true) (fd : FetchBuffer) (m : Memory) :
    (withImem (withFd s fd) m).frontEnd = s.frontEnd ∧
      (s.frontEnd = .drain ∨ s.frontEnd = .flush s.pipe.de.target) := by
  by_cases hd : s.pipe.de.op = .halt ∨ s.pipe.draining = true
  · have hfe : (withImem (withFd s fd) m).frontEnd = .drain := frontEnd_drain (s := withImem (withFd s fd) m) hd
    exact ⟨hfe.trans (frontEnd_drain hd).symm, .inl (frontEnd_drain hd)⟩
  · obtain ⟨-, hdr⟩ := not_or.mp hd
    have ht := h.resolve_right hd
    have hdr := Bool.eq_false_iff.mpr hdr
    have hfe : (withImem (withFd s fd) m).frontEnd = .flush s.pipe.de.target :=
      frontEnd_flush (s := withImem (withFd s fd) m) hdr ht
    exact ⟨hfe.trans (frontEnd_flush hdr ht).symm, .inr (frontEnd_flush hdr ht)⟩

theorem clockEdge_flushed {s : State}
    (h : s.pipe.de.taken = true ∨ s.pipe.de.op = .halt ∨ s.pipe.draining = true) (fd : FetchBuffer) (m : Memory) :
    (withImem (withFd s fd) m).clockEdge = withImem s.clockEdge m := by
  obtain ⟨hsame, hfe | hfe⟩ := frontEnd_flushed h fd m <;>
    simp only [State.clockEdge, State.nextFd, State.nextDe, State.nextPc, hsame, hfe] <;> rfl

/-- Settles O50: the two clock edges differ in the instruction memory only. -/
theorem flushedWordsHaveNoEffect : Obligations.FlushedWordsHaveNoEffect := by
  unfold Obligations.FlushedWordsHaveNoEffect
  intro s t fd m hh hcause h
  obtain ⟨hhalted, -⟩ | ⟨-, hres, rfl⟩ := cycle_next_cases h
  · simp [hh] at hhalted
  · rw [← clockEdge_flushed hcause fd m]
    exact cycle_edge hh hres

/-! Draining. -/

theorem cycle_keeps_draining {s t : State} (hd : s.pipe.draining = true) (h : cycle s = .next t) :
    t.pipe.draining = true := by
  obtain ⟨-, rfl⟩ | ⟨-, -, rfl⟩ := cycle_next_cases h
  · exact hd
  · simp [State.clockEdge, hd]

theorem runCycles_keeps_draining {n : Nat} {s t : State} (hd : s.pipe.draining = true)
    (h : runCycles n s = .next t) : t.pipe.draining = true := by
  induction n generalizing s with
  | zero => cases h; exact hd
  | succ n ih =>
    obtain ⟨u, hu, hr⟩ := runCycles_succ_cases h
    exact ih (cycle_keeps_draining hd hu) hr

/-- Settles O51: the draining edge; its only cause; that it stays, by induction on the cycles; the reset value. -/
theorem haltInExDrainsThePipeline : Obligations.HaltInExDrainsThePipeline := by
  unfold Obligations.HaltInExDrainsThePipeline
  refine ⟨fun s hh hcause hres => ?edge, fun s t hd h ht => ?cause,
    fun n s t hd h => runCycles_keeps_draining hd h, rfl⟩
  case edge =>
    have hfe := frontEnd_drain hcause
    refine ⟨s.clockEdge, cycle_edge hh hres, ?draining, ?fd, ?de, ?pc, rfl, rfl, rfl, rfl⟩
    case draining => simpa [State.clockEdge, or_comm] using hcause
    case fd => simp [State.clockEdge, State.nextFd, hfe]
    case de => simp [State.clockEdge, State.nextDe, hfe]
    case pc => simp [State.clockEdge, State.nextPc, hfe]
  case cause =>
    obtain ⟨-, rfl⟩ | ⟨hh, -, rfl⟩ := cycle_next_cases h
    · simp [hd] at ht
    · exact ⟨hh, by simpa [State.clockEdge, hd] using ht⟩

/-! MEM and WB. -/

theorem read_memDmem {s : State} (h : s.dmem.wf = true) (a : Nat) : Memory.read s.memDmem a =
    if s.pipe.em.op = .sw ∧ a = s.pipe.em.val.toNat % 2 ^ 24 then s.pipe.em.sdata else Memory.read s.dmem a := by
  unfold State.memDmem
  by_cases hop : s.pipe.em.op = .sw
  · simp only [hop, if_true, true_and, Memory.read_write h, memIndex_eq_mod]
  · simp only [hop, if_false, false_and]

/-- Settles O53: the data memory and the halted flag of the clock edge. -/
theorem storesHappenInMemAndHaltsInWb : Obligations.StoresHappenInMemAndHaltsInWb := by
  unfold Obligations.StoresHappenInMemAndHaltsInWb
  intro s t hh hwf h
  obtain ⟨hhalted, -⟩ | ⟨-, -, rfl⟩ := cycle_next_cases h
  · simp [hh] at hhalted
  · exact ⟨read_memDmem hwf, by simp [State.clockEdge, hh]⟩

/-- Two cycles write back what is in MEM and WB. -/
theorem Behind.regs_after_two {t p q : State} (h : Behind t p) (hq : runCycles 2 p = .next q) : q.regs = t.regs := by
  obtain ⟨r, hr, hrq⟩ := runCycles_succ_cases hq
  obtain ⟨q', hq', hrest⟩ := runCycles_succ_cases hrq
  obtain rfl : q' = q := by simpa using hrest
  obtain ⟨hh, -⟩ | ⟨-, -, rfl⟩ := cycle_next_cases hr
  · simp [h.running] at hh
  · obtain ⟨hh, -⟩ | ⟨-, -, rfl⟩ := cycle_next_cases hq'
    · simp [h.running_edge] at hh
    · exact p.wbRegs_edge.trans h.regs

/-- Settles O54: WB is empty in the first cycle; the filling pipeline is behind the start state until its third cycle
begins, and what a cycle begins with is written back two cycles on. -/
theorem firstFourCyclesWriteNoRegister : Obligations.FirstFourCyclesWriteNoRegister := by
  unfold Obligations.FirstFourCyclesWriteNoRegister
  intro n s t hn he h
  cases hh : s.halted with
  | true =>
    obtain rfl : s = t := by simpa using (runCycles_halted hh n).symm.trans h
    rfl
  | false =>
    have h0 := refilling_of_empty he hh
    have c0 := h0.toBehind.bubble_cycle h0.bubble
    have h1 := h0.edge
    have c1 := h1.toBehind.bubble_cycle h1.bubble
    match n, hn with
    | 0, _ => cases h; rfl
    | 1, _ =>
      rw [runCycles_succ_next c0] at h
      cases h
      simp [State.wbRegs_eq, he, Pipeline.empty, MemBuffer.noop]
    | 2, _ => exact h0.toBehind.regs_after_two h
    | 3, _ => exact h1.toBehind.regs_after_two ((runCycles_succ_next c0).symm.trans h)
    | 4, _ =>
      exact h1.edge.toBehind.regs_after_two
        ((runCycles_succ_next c1).symm.trans ((runCycles_succ_next c0).symm.trans h))

end Sys2Proof.Machine

/-! The decoder and the opcode table (spec/30_encoding.md R61 to R69, R75). Decoding under any parameters is said once
per opcode. A word decodes to an instruction exactly when it is its encoding but for the unused bits of its row
(decode_eq_ok_iff), and to a reject exactly when it is a reserved word (decode_eq_error_iff). -/

namespace Sys2Proof

/-! Decoding under any parameters, by opcode. -/

section Options
variable (o : Config.Options) {w u : Word} {i : Instr}

theorem acceptUnused_of_clear (h : w &&& u = 0#32) : acceptUnused o w u i = .ok i := by
  unfold acceptUnused
  cases o.unusedBits <;> simp [h]

theorem decodeWith_add (h : opcodeField w = 0#4) :
    decodeWith o w = acceptUnused o w unusedRS (.add (regField27 w) (regField23 w) (regField3 w)) := by
  simp [decodeWith, h]

theorem decodeWith_addi (h : opcodeField w = 1#4) :
    decodeWith o w = .ok (.addi (regField27 w) (regField23 w) (immField w)) := by simp [decodeWith, h]

theorem decodeWith_nand (h : opcodeField w = 2#4) :
    decodeWith o w = acceptUnused o w unusedRS (.nand (regField27 w) (regField23 w) (regField3 w)) := by
  simp [decodeWith, h]

theorem decodeWith_skp (h : opcodeField w = 3#4) : decodeWith o w = decodeSkp o w := by simp [decodeWith, h]

theorem decodeWith_goto (h : opcodeField w = 4#4) : decodeWith o w = decodeGoto o w := by simp [decodeWith, h]

theorem decodeWith_lea (h : opcodeField w = 5#4) :
    decodeWith o w = acceptUnused o w unusedP (.lea (regField27 w) (immField w)) := by simp [decodeWith, h]

theorem decodeWith_lw (h : opcodeField w = 8#4) :
    decodeWith o w = .ok (.lw (regField27 w) (regField23 w) (immField w)) := by simp [decodeWith, h]

theorem decodeWith_sw (h : opcodeField w = 9#4) :
    decodeWith o w = .ok (.sw (regField27 w) (regField23 w) (immField w)) := by simp [decodeWith, h]

theorem decodeWith_jalr (h : opcodeField w = 12#4) : decodeWith o w = decodeJalr o w := by simp [decodeWith, h]

theorem decodeWith_halt (h : opcodeField w = 15#4) : decodeWith o w = acceptUnused o w unusedH .halt := by
  simp [decodeWith, h]

theorem decodeWith_reserved (h : (opcodeField w).toNat ∈ [6, 7, 10, 11, 13, 14]) :
    decodeWith o w = .error (.illegalInstruction w) := by
  simp only [List.mem_cons, List.not_mem_nil, or_false] at h
  rcases h with h | h | h | h | h | h <;> simp [decodeWith, h]

theorem decodeSkp_skpe (h : modeField w = 0#4) :
    decodeSkp o w = acceptUnused o w unusedRS (.skpe (regField23 w) (regField3 w)) := by simp [decodeSkp, h]

theorem decodeSkp_skpgt (h : modeField w = 1#4) :
    decodeSkp o w = acceptUnused o w unusedRS (.skpgt (regField23 w) (regField3 w)) := by simp [decodeSkp, h]

theorem decodeSkp_reserved (h : 2 ≤ (modeField w).toNat) : decodeSkp o w =
    if o.skpReservedMode = .refuse then .error (.reservedSkpMode w) else acceptUnused o w unusedRS (.add 0 0 0) := by
  obtain ⟨n, hn⟩ := Nat.exists_eq_add_of_le' h
  unfold decodeSkp
  rw [hn]
  cases o.skpReservedMode <;> rfl

/-- A SKP word has mode 0, mode 1 or a reserved mode. -/
theorem skp_mode_cases (w : Word) : modeField w = 0#4 ∨ modeField w = 1#4 ∨ 2 ≤ (modeField w).toNat := by
  generalize modeField w = m
  revert m
  decide

theorem decodeGoto_zero (h : modeField w = 0#4) : decodeGoto o w = acceptUnused o w unusedP (.goto (immField w)) := by
  simp [decodeGoto, h]

theorem decodeGoto_reserved (h : modeField w ≠ 0#4) : decodeGoto o w =
    if o.gotoFixedField = .refuse then .error (.reservedGotoField w)
    else acceptUnused o w unusedP (.goto (immField w)) := by
  have hn : (modeField w).toNat ≠ 0 := fun e => h (BitVec.eq_of_toNat_eq e)
  obtain ⟨n, hn⟩ := Nat.exists_eq_succ_of_ne_zero hn
  unfold decodeGoto
  rw [hn]
  cases o.gotoFixedField <;> rfl

theorem decodeJalr_refuse (h : o.jalrAlias = .refuse) : decodeJalr o w =
    if jalrAliased w then .error (.jalrAlias w)
    else acceptUnused o w unusedJ (.jalr (regField27 w) (regField23 w)) := by simp only [decodeJalr, h]

theorem jalrAliased_iff : jalrAliased w = true ↔ regField27 w = regField23 w ∧ regField27 w ≠ 0 := by
  simp [jalrAliased]

theorem decodeJalr_of_not_aliased (h : o.jalrAlias = .refuse → jalrAliased w = false) :
    decodeJalr o w = acceptUnused o w unusedJ (.jalr (regField27 w) (regField23 w)) := by
  cases ho : o.jalrAlias with
  | sequential => simp only [decodeJalr, ho]
  | refuse => simp [decodeJalr_refuse o ho, h ho]

end Options

theorem encodes_to_row (i : Instr) : Laws.EncodesToRow.Statement i := by
  cases i with
  | add dr sr1 sr2 => exact Laws.EncodesToRow.add dr sr1 sr2
  | addi dr sr1 imm => exact Laws.EncodesToRow.addi dr sr1 imm
  | nand dr sr1 sr2 => exact Laws.EncodesToRow.nand dr sr1 sr2
  | skpe sr1 sr2 => exact Laws.EncodesToRow.skpe sr1 sr2
  | skpgt sr1 sr2 => exact Laws.EncodesToRow.skpgt sr1 sr2
  | goto off => exact Laws.EncodesToRow.goto off
  | lea dr off => exact Laws.EncodesToRow.lea dr off
  | lw dr base off => exact Laws.EncodesToRow.lw dr base off
  | sw sr base off => exact Laws.EncodesToRow.sw sr base off
  | jalr tgt link => exact Laws.EncodesToRow.jalr tgt link
  | halt => exact Laws.EncodesToRow.halt

theorem jalrAliased_encode (tgt link : RegNum) :
    jalrAliased (encode (.jalr tgt link)) = true ↔ tgt = link ∧ tgt ≠ 0 := by simp [jalrAliased_iff, encode]

/-- Encoded words have zeros in their unused bits, so no setting but that of `jalr_alias` matters for them. -/
theorem decodeWith_encode (o : Config.Options) (i : Instr)
    (hj : o.jalrAlias = .refuse → ∀ r, i = .jalr r r → r = 0) : decodeWith o (encode i) = .ok i := by
  obtain ⟨-, hclear⟩ := encodes_to_row i
  cases i with
  | add dr sr1 sr2 =>
    rw [decodeWith_add o (by simp [encode]), acceptUnused_of_clear (u := unusedRS) o hclear]
    simp [encode]
  | nand dr sr1 sr2 =>
    rw [decodeWith_nand o (by simp [encode]), acceptUnused_of_clear (u := unusedRS) o hclear]
    simp [encode]
  | addi dr sr1 imm => rw [decodeWith_addi o (by simp [encode])]; simp [encode]
  | lw dr base off => rw [decodeWith_lw o (by simp [encode])]; simp [encode]
  | sw sr base off => rw [decodeWith_sw o (by simp [encode])]; simp [encode]
  | lea dr off => rw [decodeWith_lea o (by simp [encode]), acceptUnused_of_clear (u := unusedP) o hclear]; simp [encode]
  | halt => rw [decodeWith_halt o (by simp [encode]), acceptUnused_of_clear (u := unusedH) o hclear]
  | skpe sr1 sr2 =>
    rw [decodeWith_skp o (by simp [encode]), decodeSkp_skpe o (by simp [encode]),
      acceptUnused_of_clear (u := unusedRS) o hclear]
    simp [encode]
  | skpgt sr1 sr2 =>
    rw [decodeWith_skp o (by simp [encode]), decodeSkp_skpgt o (by simp [encode]),
      acceptUnused_of_clear (u := unusedRS) o hclear]
    simp [encode]
  | goto off =>
    rw [decodeWith_goto o (by simp [encode]), decodeGoto_zero o (by simp [encode]),
      acceptUnused_of_clear (u := unusedP) o hclear]
    simp [encode]
  | jalr tgt link =>
    have hna : o.jalrAlias = .refuse → jalrAliased (encode (.jalr tgt link)) = false := fun ho =>
      Bool.eq_false_iff.mpr fun ha => by
        obtain ⟨rfl, h0⟩ := (jalrAliased_encode tgt link).mp ha
        exact h0 (hj ho tgt rfl)
    rw [decodeWith_jalr o (by simp [encode]), decodeJalr_of_not_aliased o hna,
      acceptUnused_of_clear (u := unusedJ) o hclear]
    simp [encode]

theorem decode_encode (i : Instr) : decode (encode i) = .ok i :=
  decodeWith_encode Config.options i (fun h => by simp [Config.options] at h)

/-- Settles O2: decodeWith_encode, and under `refuse` the aliased word is refused before its unused bits count. -/
theorem decodeOfEncodeIsTheInstruction : Obligations.DecodeOfEncodeIsTheInstruction := by
  unfold Obligations.DecodeOfEncodeIsTheInstruction
  refine ⟨fun o i _ hj => decodeWith_encode o i hj, fun o r ho hr => ?_⟩
  rw [decodeWith_jalr o (by simp [encode]), decodeJalr_refuse o ho, if_pos ((jalrAliased_encode r r).mpr ⟨rfl, hr⟩)]

/-! Words against the opcode table. -/

theorem and_fullField (x : BitVec 4) : x &&& 0xF#4 = x := BitVec.and_allOnes

theorem regBits_regField27 (w : Word) : regBits (regField27 w) = modeField w := rfl

/-- The low field of formats R and S without its unused bits. -/
theorem lowReg_regField3 (w : Word) : lowReg (regField3 w) = immField w &&& 0xF#20 := by
  have hmask : (0xF#20).toNat = 2 ^ 4 - 1 := rfl
  apply BitVec.eq_of_toNat_eq
  rw [lowReg, show regBits (regField3 w) = w.extractLsb' 0 4 from rfl, immField, BitVec.toNat_append, BitVec.toNat_and,
    hmask, Nat.and_two_pow_sub_one_eq_mod]
  simp only [BitVec.extractLsb'_toNat, BitVec.toNat_ofNat, Nat.zero_mod, Nat.zero_shiftLeft, Nat.zero_or,
    Nat.shiftRight_zero]
  omega

/-- A word with the bits of a mask cleared, field by field. -/
theorem clear_mask (w u : Word) (m27 m23 : BitVec 4) (ml : BitVec 20) (hu : ~~~u = packWord 0xF#4 m27 m23 ml) :
    w &&& ~~~u = packWord (opcodeField w) (modeField w &&& m27) (w.extractLsb' 20 4 &&& m23) (immField w &&& ml) :=
  calc w &&& ~~~u = packWord (opcodeField w) (modeField w) (w.extractLsb' 20 4) (immField w) &&& ~~~u := by
        rw [pack_fields]
    _ = packWord (opcodeField w &&& 0xF#4) (modeField w &&& m27) (w.extractLsb' 20 4 &&& m23) (immField w &&& ml) := by
        rw [hu, pack_and]
    _ = _ := by rw [and_fullField]

section Clear
variable (w : Word)

theorem clear_unusedRS : w &&& ~~~unusedRS =
    packWord (opcodeField w) (regBits (regField27 w)) (regBits (regField23 w)) (lowReg (regField3 w)) := by
  rw [clear_mask w unusedRS 0xF#4 0xF#4 0xF#20 (by decide), and_fullField, and_fullField, lowReg_regField3]
  rfl

theorem clear_unusedP : w &&& ~~~unusedP = packWord (opcodeField w) (regBits (regField27 w)) 0#4 (immField w) := by
  rw [clear_mask w unusedP 0xF#4 0#4 (BitVec.allOnes 20) (by decide), and_fullField, BitVec.and_zero,
    BitVec.and_allOnes]
  rfl

theorem clear_unusedJ : w &&& ~~~unusedJ =
    packWord (opcodeField w) (regBits (regField27 w)) (regBits (regField23 w)) 0#20 := by
  rw [clear_mask w unusedJ 0xF#4 0xF#4 0#20 (by decide), and_fullField, and_fullField, BitVec.and_zero]
  rfl

theorem clear_unusedH : w &&& ~~~unusedH = packWord (opcodeField w) 0#4 0#4 0#20 := by
  rw [clear_mask w unusedH 0#4 0#4 0#20 (by decide), BitVec.and_zero, BitVec.and_zero, BitVec.and_zero]

theorem clear_nothing : w &&& ~~~0#32 =
    packWord (opcodeField w) (regBits (regField27 w)) (regBits (regField23 w)) (immField w) := by
  rw [clear_mask w 0#32 0xF#4 0xF#4 (BitVec.allOnes 20) (by decide), and_fullField, and_fullField, BitVec.and_allOnes]
  rfl

end Clear

theorem encode_of_decode {w : Word} {i : Instr} (h : decode w = .ok i) : encode i = w &&& ~~~i.row.unused := by
  rcases decode_ok_cases h with ⟨ho, rfl⟩ | ⟨ho, rfl⟩ | ⟨ho, rfl⟩ | ⟨ho, hm, rfl⟩ | ⟨ho, hm, rfl⟩ | ⟨ho, hm, rfl⟩ |
    ⟨ho, rfl⟩ | ⟨ho, rfl⟩ | ⟨ho, rfl⟩ | ⟨ho, rfl⟩ | ⟨ho, rfl⟩
  · exact ((clear_unusedRS w).trans (by rw [ho]; rfl)).symm
  · exact ((clear_nothing w).trans (by rw [ho]; rfl)).symm
  · exact ((clear_unusedRS w).trans (by rw [ho]; rfl)).symm
  · exact ((clear_unusedRS w).trans (by rw [ho, regBits_regField27, hm]; rfl)).symm
  · exact ((clear_unusedRS w).trans (by rw [ho, regBits_regField27, hm]; rfl)).symm
  · exact ((clear_unusedP w).trans (by rw [ho, regBits_regField27, hm]; rfl)).symm
  · exact ((clear_unusedP w).trans (by rw [ho]; rfl)).symm
  · exact ((clear_nothing w).trans (by rw [ho]; rfl)).symm
  · exact ((clear_nothing w).trans (by rw [ho]; rfl)).symm
  · exact ((clear_unusedJ w).trans (by rw [ho]; rfl)).symm
  · exact ((clear_unusedH w).trans (by rw [ho]; rfl)).symm

theorem row_mem_opcodeTable (i : Instr) : i.row ∈ opcodeTable := by
  cases i <;> simp [opcodeTable, Instr.row]

theorem hits_iff (r : OpcodeRow) (w : Word) : r.hits w = true ↔ w &&& r.mask = r.pattern := beq_iff_eq

/-- No row looks at its unused bits. -/
theorem mask_clear_unused (i : Instr) : ~~~i.row.unused &&& i.row.mask = i.row.mask := by
  cases i <;> simp only [Instr.row] <;> decide

/-- A word hits the row of an instruction whose encoding it is but for the unused bits. -/
theorem hits_of_encode_eq {w : Word} {i : Instr} (h : encode i = w &&& ~~~i.row.unused) : i.row.hits w = true := by
  obtain ⟨hhits, -⟩ := encodes_to_row i
  rw [hits_iff] at hhits ⊢
  calc w &&& i.row.mask = (w &&& ~~~i.row.unused) &&& i.row.mask := by rw [BitVec.and_assoc, mask_clear_unused]
    _ = i.row.pattern := by rw [← h, hhits]

theorem opcodeField_and (w m : Word) : opcodeField (w &&& m) = opcodeField w &&& opcodeField m := BitVec.extractLsb'_and

theorem modeField_and (w m : Word) : modeField (w &&& m) = modeField w &&& modeField m := BitVec.extractLsb'_and

theorem opcodeField_of_and {w m p : Word} (hm : opcodeField m = 0xF#4) (h : w &&& m = p) :
    opcodeField w = opcodeField p := by rw [← h, opcodeField_and, hm, and_fullField]

theorem modeField_of_and {w m p : Word} (hm : modeField m = 0xF#4) (h : w &&& m = p) : modeField w = modeField p := by
  rw [← h, modeField_and, hm, and_fullField]

theorem decode_of_hits {w : Word} {r : OpcodeRow} (hr : r ∈ opcodeTable) (h : r.hits w = true) :
    ∃ i, decode w = .ok i ∧ i.row = r := by
  rw [hits_iff] at h
  have hop : opcodeField r.mask = 0xF#4 → opcodeField w = opcodeField r.pattern := fun hm => opcodeField_of_and hm h
  have hmode : modeField r.mask = 0xF#4 → modeField w = modeField r.pattern := fun hm => modeField_of_and hm h
  simp only [opcodeTable, List.mem_cons, List.not_mem_nil, or_false] at hr
  rcases hr with rfl | rfl | rfl | rfl | rfl | rfl | rfl | rfl | rfl | rfl | rfl
  · exact ⟨_, decode_add (hop rfl), rfl⟩
  · exact ⟨_, decode_addi (hop rfl), rfl⟩
  · exact ⟨_, decode_nand (hop rfl), rfl⟩
  · exact ⟨_, decode_skpe (hop rfl) (hmode rfl), rfl⟩
  · exact ⟨_, decode_skpgt (hop rfl) (hmode rfl), rfl⟩
  · exact ⟨_, decode_goto (hop rfl) (hmode rfl), rfl⟩
  · exact ⟨_, decode_lea (hop rfl), rfl⟩
  · exact ⟨_, decode_lw (hop rfl), rfl⟩
  · exact ⟨_, decode_sw (hop rfl), rfl⟩
  · exact ⟨_, decode_jalr (hop rfl), rfl⟩
  · exact ⟨_, decode_halt (hop rfl), rfl⟩

/-- The words that decode to an instruction: its encoding, with any bits in the unused ones. -/
theorem decode_eq_ok_iff {w : Word} {i : Instr} : decode w = .ok i ↔ encode i = w &&& ~~~i.row.unused := by
  refine ⟨encode_of_decode, fun h => ?_⟩
  obtain ⟨j, hj, hrow⟩ := decode_of_hits (row_mem_opcodeTable i) (hits_of_encode_eq h)
  have hij : encode j = encode i := by rw [encode_of_decode hj, hrow, h]
  have hsame : (Except.ok j : Except Reject Instr) = .ok i := by rw [← decode_encode, hij, decode_encode]
  exact hj.trans hsame

/-- Settles O3: one direction of decode_eq_ok_iff. -/
theorem encodeOfDecodeClearsUnusedBitsOnly : Obligations.EncodeOfDecodeClearsUnusedBitsOnly := by
  unfold Obligations.EncodeOfDecodeClearsUnusedBitsOnly
  exact fun w i h => encode_of_decode h

/-- What a mask clears may be filled with anything before it is cleared again. -/
theorem clear_fill (w v u : Word) : ((w &&& ~~~u) ||| (v &&& u)) &&& ~~~u = w &&& ~~~u := by
  ext k hk
  simp
  grind

/-- Settles O4: both words are the encoding but for the unused bits. -/
theorem unusedBitsAreIgnored : Obligations.UnusedBitsAreIgnored := by
  unfold Obligations.UnusedBitsAreIgnored
  intro w v i h
  rw [decode_eq_ok_iff, clear_fill]
  exact encode_of_decode h

/-- Settles O5: a word's instruction determines the one row it hits. -/
theorem decoderAgreesWithOpcodeTable : Obligations.DecoderAgreesWithOpcodeTable := by
  unfold Obligations.DecoderAgreesWithOpcodeTable
  refine ⟨fun w i h => ⟨row_mem_opcodeTable i, hits_of_encode_eq (encode_of_decode h)⟩,
    fun w r hr h => decode_of_hits hr h, fun w r q hr hq hrw hqw => ?_⟩
  obtain ⟨i, hi, rfl⟩ := decode_of_hits hr hrw
  obtain ⟨j, hj, rfl⟩ := decode_of_hits hq hqw
  rw [hi] at hj
  cases hj
  rfl

/-! The words that do not decode, and the other settings. -/

section Reserved
variable {w : Word}

theorem decode_reserved_opcode (h : (opcodeField w).toNat ∈ [6, 7, 10, 11, 13, 14]) :
    decode w = .error (.illegalInstruction w) := decodeWith_reserved Config.options h

theorem decode_reserved_skp (h : opcodeField w = 3#4) (hm : 2 ≤ (modeField w).toNat) :
    decode w = .error (.reservedSkpMode w) :=
  (decodeWith_skp Config.options h).trans (decodeSkp_reserved Config.options hm)

theorem decode_reserved_goto (h : opcodeField w = 4#4) (hm : modeField w ≠ 0#4) :
    decode w = .error (.reservedGotoField w) :=
  (decodeWith_goto Config.options h).trans (decodeGoto_reserved Config.options hm)

end Reserved

/-- The word has a reserved opcode, a SKP with a reserved mode, or a GOTO with a nonzero fixed field, and `r` says
which. -/
def ReservedAs (w : Word) (r : Reject) : Prop :=
  ((opcodeField w).toNat ∈ [6, 7, 10, 11, 13, 14] ∧ r = .illegalInstruction w) ∨
  (opcodeField w = 3#4 ∧ 2 ≤ (modeField w).toNat ∧ r = .reservedSkpMode w) ∨
  (opcodeField w = 4#4 ∧ modeField w ≠ 0#4 ∧ r = .reservedGotoField w)

theorem decode_of_reservedAs {w : Word} {r : Reject} (h : ReservedAs w r) : decode w = .error r := by
  obtain ⟨ho, rfl⟩ | ⟨ho, hm, rfl⟩ | ⟨ho, hm, rfl⟩ := h
  · exact decode_reserved_opcode ho
  · exact decode_reserved_skp ho hm
  · exact decode_reserved_goto ho hm

/-- Every word is an instruction or reserved (R75). -/
theorem decode_cases (w : Word) : (∃ i, decode w = .ok i) ∨ ∃ r, ReservedAs w r := by
  have illegal : (opcodeField w).toNat ∈ [6, 7, 10, 11, 13, 14] → ∃ r, ReservedAs w r := fun h => ⟨_, .inl ⟨h, rfl⟩⟩
  rcases field_cases (opcodeField w) with
    ho | ho | ho | ho | ho | ho | ho | ho | ho | ho | ho | ho | ho | ho | ho | ho
  · exact .inl ⟨_, decode_add ho⟩
  · exact .inl ⟨_, decode_addi ho⟩
  · exact .inl ⟨_, decode_nand ho⟩
  · obtain hm | hm | hm := skp_mode_cases w
    · exact .inl ⟨_, decode_skpe ho hm⟩
    · exact .inl ⟨_, decode_skpgt ho hm⟩
    · exact .inr ⟨_, .inr (.inl ⟨ho, hm, rfl⟩)⟩
  · by_cases hm : modeField w = 0#4
    · exact .inl ⟨_, decode_goto ho hm⟩
    · exact .inr ⟨_, .inr (.inr ⟨ho, hm, rfl⟩)⟩
  · exact .inl ⟨_, decode_lea ho⟩
  · exact .inr (illegal (by simp [ho]))
  · exact .inr (illegal (by simp [ho]))
  · exact .inl ⟨_, decode_lw ho⟩
  · exact .inl ⟨_, decode_sw ho⟩
  · exact .inr (illegal (by simp [ho]))
  · exact .inr (illegal (by simp [ho]))
  · exact .inl ⟨_, decode_jalr ho⟩
  · exact .inr (illegal (by simp [ho]))
  · exact .inr (illegal (by simp [ho]))
  · exact .inl ⟨_, decode_halt ho⟩

theorem decode_eq_error_iff {w : Word} {r : Reject} : decode w = .error r ↔ ReservedAs w r := by
  refine ⟨fun h => ?_, decode_of_reservedAs⟩
  obtain ⟨i, hi⟩ | ⟨q, hq⟩ := decode_cases w
  · rw [hi] at h; cases h
  · rw [decode_of_reservedAs hq] at h
    cases h
    exact hq

/-- The strict setting of D7 and the defaults of the others. -/
def strictOptions : Config.Options := { Config.options with unusedBits := .refuse }

theorem acceptUnused_strict (w u : Word) (i : Instr) : acceptUnused strictOptions w u i =
    if w &&& u = 0#32 then .ok i else .error (.nonzeroUnusedBits w) := rfl

theorem decodeWith_strict_ok {w : Word} {i : Instr} (h : decode w = .ok i) :
    decodeWith strictOptions w = acceptUnused strictOptions w i.row.unused i := by
  have all : ∀ j, acceptUnused strictOptions w 0#32 j = .ok j := fun j => acceptUnused_of_clear _ BitVec.and_zero
  rcases decode_ok_cases h with ⟨ho, rfl⟩ | ⟨ho, rfl⟩ | ⟨ho, rfl⟩ | ⟨ho, hm, rfl⟩ | ⟨ho, hm, rfl⟩ | ⟨ho, hm, rfl⟩ |
    ⟨ho, rfl⟩ | ⟨ho, rfl⟩ | ⟨ho, rfl⟩ | ⟨ho, rfl⟩ | ⟨ho, rfl⟩
  · exact decodeWith_add _ ho
  · exact (decodeWith_addi _ ho).trans (all _).symm
  · exact decodeWith_nand _ ho
  · exact (decodeWith_skp _ ho).trans (decodeSkp_skpe _ hm)
  · exact (decodeWith_skp _ ho).trans (decodeSkp_skpgt _ hm)
  · exact (decodeWith_goto _ ho).trans (decodeGoto_zero _ hm)
  · exact decodeWith_lea _ ho
  · exact (decodeWith_lw _ ho).trans (all _).symm
  · exact (decodeWith_sw _ ho).trans (all _).symm
  · exact (decodeWith_jalr _ ho).trans (decodeJalr_of_not_aliased _ (fun h => by cases h))
  · exact decodeWith_halt _ ho

theorem decodeWith_strict_error {w : Word} {r : Reject} (h : decode w = .error r) :
    decodeWith strictOptions w = .error r := by
  obtain ⟨ho, rfl⟩ | ⟨ho, hm, rfl⟩ | ⟨ho, hm, rfl⟩ := decode_eq_error_iff.mp h
  · exact decodeWith_reserved _ ho
  · exact (decodeWith_skp _ ho).trans (decodeSkp_reserved _ hm)
  · exact (decodeWith_goto _ ho).trans (decodeGoto_reserved _ hm)

/-- Settles O6: every row passes its own unused bits to the check, and a reserved word is rejected before it. -/
theorem strictSettingRefusesNonzeroUnusedBits : Obligations.StrictSettingRefusesNonzeroUnusedBits := by
  unfold Obligations.StrictSettingRefusesNonzeroUnusedBits
  intro w
  cases hd : decode w with
  | ok i => exact (decodeWith_strict_ok hd).trans (acceptUnused_strict w _ i)
  | error r => exact decodeWith_strict_error hd

/-- The parameters other than the unused bits matter in the opcode they name only. -/
theorem decodeWith_congr {o o' : Config.Options} {w : Word} (hu : o.unusedBits = o'.unusedBits)
    (hskp : opcodeField w = 3#4 → decodeSkp o w = decodeSkp o' w)
    (hgoto : opcodeField w = 4#4 → decodeGoto o w = decodeGoto o' w)
    (hjalr : opcodeField w = 12#4 → decodeJalr o w = decodeJalr o' w) : decodeWith o w = decodeWith o' w := by
  have haccept : ∀ u i, acceptUnused o w u i = acceptUnused o' w u i := fun u i => by simp only [acceptUnused, hu]
  unfold decodeWith
  simp only [haccept]
  split
  case h_4 h => exact hskp (BitVec.eq_of_toNat_eq h)
  case h_5 h => exact hgoto (BitVec.eq_of_toNat_eq h)
  case h_9 h => exact hjalr (BitVec.eq_of_toNat_eq h)
  all_goals rfl

/-- Settles O7: the setting `no_skip` is read for the reserved modes of SKP only, and `ignore` for GOTO only. -/
theorem alternativeSettingsOfReservedFields : Obligations.AlternativeSettingsOfReservedFields := by
  unfold Obligations.AlternativeSettingsOfReservedFields
  intro w
  constructor
  · by_cases h : opcodeField w = 3#4 ∧ 2 ≤ (modeField w).toNat
    · rw [if_pos h, decodeWith_skp _ h.1, decodeSkp_reserved _ h.2]
      rfl
    · rw [if_neg h]
      refine decodeWith_congr rfl (fun ho => ?_) (fun _ => rfl) (fun _ => rfl)
      obtain hm | hm | hm := skp_mode_cases w
      · rw [decodeSkp_skpe _ hm, decodeSkp_skpe _ hm]; rfl
      · rw [decodeSkp_skpgt _ hm, decodeSkp_skpgt _ hm]; rfl
      · exact absurd ⟨ho, hm⟩ h
  · by_cases h : opcodeField w = 4#4
    · rw [if_pos h, decodeWith_goto _ h]
      by_cases hm : modeField w = 0#4
      · rw [decodeGoto_zero _ hm]; rfl
      · rw [decodeGoto_reserved _ hm]; rfl
    · rw [if_neg h]
      exact decodeWith_congr rfl (fun _ => rfl) (fun ho => absurd ho h) (fun _ => rfl)

/-- Under `jalr_alias = refuse` the aliased JALR words are refused and nothing else changes (R121 d, D11). -/
theorem decode_jalrAlias_refuse (w : Word) : decodeWith { Config.options with jalrAlias := .refuse } w =
    if opcodeField w = 12#4 ∧ regField27 w = regField23 w ∧ regField27 w ≠ 0 then .error (.jalrAlias w)
    else decode w := by
  by_cases ho : opcodeField w = 12#4
  · rw [decodeWith_jalr _ ho, decodeJalr_refuse _ rfl, decode_jalr ho]
    simp only [jalrAliased_iff, ho, true_and]
    rfl
  · rw [if_neg (fun h => ho h.1)]
    exact decodeWith_congr rfl (fun _ => rfl) (fun _ => rfl) (fun h => absurd h ho)

/-- Settles O1: the decoder runs on eleven literal words. -/
theorem specWordsDecode : Obligations.SpecWordsDecode := by
  unfold Obligations.SpecWordsDecode
  decide

end Sys2Proof

/-! The step (spec/00_scope.md R3; spec/20_memory.md R43; spec/60_exceptions.md R121): what it runs, what it depends on,
and where it stops. -/

namespace Sys2Proof.Machine

open Claims

/-- Settles O8: the fetch of a running step is the decoding of that word. -/
theorem stepRunsTheDecodedInstruction : Obligations.StepRunsTheDecodedInstruction := by
  unfold Obligations.StepRunsTheDecodedInstruction
  exact fun s i hh hd => step_ok hh hd

/-- A step that answers no next state: the machine runs and the word at the pc is no instruction. -/
theorem step_stop_cases {s : State} (h : ∀ t, step s ≠ .next t) :
    ∃ r, s.halted = false ∧ ReservedAs s.fetchWord r ∧ step s = stopFor r := by
  cases hh : s.halted with
  | true => exact absurd (step_halted hh) (h s)
  | false =>
    obtain ⟨r, hf, hs⟩ | ⟨-, hs⟩ | ⟨i, t, -, -, -, hs, -⟩ := step_running_cases hh
    · exact ⟨r, rfl, decode_eq_error_iff.mp hf, hs⟩
    · exact absurd hs (h _)
    · exact absurd hs (h t)

theorem step_of_reservedAs {s : State} {r : Reject} (hh : s.halted = false) (h : ReservedAs s.fetchWord r) :
    step s = stopFor r := step_error hh (decode_of_reservedAs h)

/-- Settles O9: the three kinds of reserved words against the outcome that each is given. -/
theorem stopsExactlyOnReservedWords : Obligations.StopsExactlyOnReservedWords := by
  unfold Obligations.StopsExactlyOnReservedWords
  refine ⟨fun s f => ⟨fun h => ?faults, fun ⟨hh, ho, hf⟩ => ?fault⟩,
    fun s r => ⟨fun h => ?refuses, fun ⟨hh, hr⟩ => ?refusal⟩⟩
  case faults =>
    obtain ⟨q, hh, ⟨ho, rfl⟩ | ⟨-, -, rfl⟩ | ⟨-, -, rfl⟩, hs⟩ := step_stop_cases (s := s) (by simp [h]) <;>
      rw [h] at hs <;> cases hs
    exact ⟨hh, ho, rfl⟩
  case fault =>
    rw [step_of_reservedAs hh (.inl ⟨ho, rfl⟩), hf]
    rfl
  case refuses =>
    obtain ⟨q, hh, ⟨-, rfl⟩ | ⟨ho, hm, rfl⟩ | ⟨ho, hm, rfl⟩, hs⟩ := step_stop_cases (s := s) (by simp [h]) <;>
      rw [h] at hs <;> cases hs
    · exact ⟨hh, .inl ⟨ho, hm, rfl⟩⟩
    · exact ⟨hh, .inr ⟨ho, hm, rfl⟩⟩
  case refusal =>
    obtain ⟨ho, hm, rfl⟩ | ⟨ho, hm, rfl⟩ := hr
    · rw [step_of_reservedAs hh (.inr (.inl ⟨ho, hm, rfl⟩))]
      rfl
    · rw [step_of_reservedAs hh (.inr (.inr ⟨ho, hm, rfl⟩))]
      rfl

theorem tableWord_toNat (w : Word) : tableWord 32 w.toNat = w := by
  rw [tableWord, Nat.mod_eq_of_lt w.isLt, BitVec.ofNat_toNat, BitVec.setWidth_eq]

theorem fetch_placeWord {s : State} (h : s.imem.wf = true) (w : Word) : (s.placeWord w).fetch = decode w :=
  congrArg decode (Memory.read_write_same h (memIndex s.pc) w)

/-- Settles O10: the table number is the word, which is fetched from where it was placed. -/
theorem placedInstructionRunsNext : Obligations.PlacedInstructionRunsNext := by
  unfold Obligations.PlacedInstructionRunsNext
  intro s i h
  have hdecode : decode (tableWord 32 (encode i).toNat) = .ok i := by rw [tableWord_toNat, decode_encode]
  exact ⟨by simp only [decodeTableWord, hdecode], step_ok rfl ((fetch_placeWord h _).trans hdecode)⟩

section OtherImem
variable {s : State} {m : Memory}

theorem fetch_withImem (h : Memory.read m (memIndex s.pc) = Memory.read s.imem (memIndex s.pc)) :
    (withImem s m).fetch = s.fetch := congrArg decode h

/-- No instruction looks at the instruction memory. -/
theorem exec_withImem {i : Instr} {t : State} (h : exec i s = .next t) :
    exec i (withImem s m) = .next (withImem t m) := by
  cases i with
  | skpe sr1 sr2 => rw [exec_skpe, State.skip_eq] at h ⊢; cases h; rfl
  | skpgt sr1 sr2 => rw [exec_skpgt, State.skip_eq] at h ⊢; cases h; rfl
  | _ => cases h; rfl

theorem step_withImem_stop (hf : (withImem s m).fetch = s.fetch) (h : ∀ t, step s ≠ .next t) :
    step (withImem s m) = step s := by
  obtain ⟨r, hh, hr, hs⟩ := step_stop_cases h
  rw [hs]
  exact step_error hh (hf.trans (decode_of_reservedAs hr))

end OtherImem

/-- Settles O11: the fetch is the same, and neither an instruction nor a stop looks at the instruction memory. -/
theorem stepDependsOnOneInstructionWord : Obligations.StepDependsOnOneInstructionWord := by
  unfold Obligations.StepDependsOnOneInstructionWord
  intro s m h
  have hf := fetch_withImem h
  refine ⟨fun t ht => ?_, fun f hs => (step_withImem_stop hf (by simp [hs])).trans hs,
    fun r hs => (step_withImem_stop hf (by simp [hs])).trans hs⟩
  obtain ⟨hh, rfl⟩ | ⟨i, hh, hi, hx⟩ := step_next_cases ht
  · exact step_halted hh
  · exact (step_ok (s := withImem s m) hh (hf.trans hi)).trans (exec_withImem hx)

/-! The frame of every instruction (spec/10_state.md R34). -/

theorem exec_readReg {i : Instr} {s t : State} (h : exec i s = .next t) {r : RegNum} (hr : i.dest ≠ some r) :
    t.readReg r = s.readReg r := by
  obtain ⟨⟨-, hregs⟩ | ⟨d, v, hd, hregs⟩, -⟩ := exec_changes h
  · rw [State.readReg, hregs, State.readReg]
  · have hne : r ≠ d := fun e => hr (e ▸ hd)
    rw [State.readReg, hregs, RegFile.read_write_ne _ hne, State.readReg]

/-- Another word of the data memory than the one stored to reads as before. -/
theorem read_storeInto_ne (m : Memory) {o : Option (Nat × Word)} {a : Nat} (h : o.map Prod.fst ≠ some a) :
    Memory.read (storeInto m o) a = Memory.read m a := by
  cases o with
  | none => rfl
  | some e => exact Memory.read_write_ne m (fun e => h (by simp [e])) _

/-- Settles O12: every clause is read off exec_changes; the data words are those behind the store. -/
theorem everyInstructionCompletes : Obligations.EveryInstructionCompletes := by
  unfold Obligations.EveryInstructionCompletes
  intro i s
  obtain ⟨t, ht⟩ := exec_total i s
  obtain ⟨hregs, hdmem, hhalted, himem, hpipe⟩ := exec_changes ht
  refine ⟨t, ht, himem, hpipe, fun h => ?halted, fun h => ?dmem, fun a ha => ?words, fun h => ?regs,
    fun r hr => exec_readReg ht hr⟩
  case halted => exact (hhalted.resolve_left h).1
  case dmem =>
    obtain ⟨sr, base, off, hi, -⟩ := hdmem.resolve_left h
    exact ⟨sr, base, off, hi⟩
  case words => rw [exec_dmem ht, read_storeInto_ne s.dmem ha]
  case regs =>
    obtain ⟨-, hsame⟩ | ⟨r, v, hd, hw⟩ := hregs
    · exact absurd hsame h
    · refine ⟨r, hd, fun h0 => h ?_⟩
      rw [hw, h0, RegFile.write_zero]

/-- A register write before another: void on the same register, else the two commute. -/
theorem State.writeReg_writeReg (s : State) (r d : RegNum) (v w : Word) : (s.writeReg r v).writeReg d w =
    if some d = some r then s.writeReg d w else (s.writeReg d w).writeReg r v := by
  by_cases h : d = r
  · subst h
    simp [State.writeReg, RegFile.write_write_same]
  · simp [State.writeReg, h, RegFile.write_comm _ (Ne.symm h)]

theorem State.readReg_writeReg_ne (s : State) {r q : RegNum} (h : q ≠ r) (v : Word) :
    (s.writeReg r v).readReg q = s.readReg q := RegFile.read_write_ne s.regs h v

/-- Writing back commutes with a register write before, or voids it. -/
theorem writeBack_writeReg (s : State) (r d : RegNum) (v w pc' : Word) :
    ((s.writeReg r v).writeReg d w).setPc pc' =
      if some d = some r then (s.writeReg d w).setPc pc' else ((s.writeReg d w).setPc pc').writeReg r v := by
  rw [State.writeReg_writeReg]
  split <;> rfl

theorem reads_eq_false {i : Instr} {r : RegNum} (h : i.reads r = false) : i.srcA ≠ some r ∧ i.srcB ≠ some r := by
  simpa [Instr.reads] using h

/-- An instruction that does not read `x[r]` does the same after a write to it. -/
theorem exec_writeReg {i : Instr} {s t : State} {r : RegNum} (hr : i.reads r = false) (h : exec i s = .next t)
    (v : Word) : exec i (s.writeReg r v) = .next (if i.dest = some r then t else t.writeReg r v) := by
  obtain ⟨hA, hB⟩ := reads_eq_false hr
  have read : ∀ {q : RegNum}, some q ≠ some r → (s.writeReg r v).readReg q = s.readReg q := fun hq =>
    s.readReg_writeReg_ne (fun e => hq (congrArg some e)) v
  cases i with
  | add dr sr1 sr2 => cases h; rw [exec_add, read hA, read hB]; exact congrArg _ (writeBack_writeReg s r dr v _ _)
  | nand dr sr1 sr2 => cases h; rw [exec_nand, read hA, read hB]; exact congrArg _ (writeBack_writeReg s r dr v _ _)
  | addi dr sr1 imm => cases h; rw [exec_addi, read hA]; exact congrArg _ (writeBack_writeReg s r dr v _ _)
  | lea dr off => cases h; exact congrArg _ (writeBack_writeReg s r dr v _ _)
  | lw dr base off =>
    cases h
    rw [exec_lw, State.effectiveAddress, read hA]
    exact congrArg _ (writeBack_writeReg s r dr v _ _)
  | jalr tgt link =>
    cases h
    have hpc : ((s.writeReg r v).jumpAndLink tgt link).pc = (s.jumpAndLink tgt link).pc := by
      rw [State.jumpAndLink_pc, State.jumpAndLink_pc, read hA]; rfl
    have hj : ∀ u : State, u.jumpAndLink tgt link = (u.writeReg link u.npc).setPc (u.jumpAndLink tgt link).pc :=
      fun _ => rfl
    rw [exec_jalr, hj, hpc]
    exact congrArg _ (writeBack_writeReg s r link v _ _)
  | skpe sr1 sr2 => rw [exec_skpe, State.skip_eq] at h ⊢; cases h; rw [read hA, read hB]; rfl
  | skpgt sr1 sr2 => rw [exec_skpgt, State.skip_eq] at h ⊢; cases h; rw [read hA, read hB]; rfl
  | sw sr base off => cases h; rw [exec_sw, State.effectiveAddress, read hA, read hB]; rfl
  | goto off => cases h; rfl
  | halt => cases h; rfl

/-- Settles O15: exec_readReg and exec_writeReg. -/
theorem registersOutsideTheFieldsPlayNoPart : Obligations.RegistersOutsideTheFieldsPlayNoPart := by
  unfold Obligations.RegistersOutsideTheFieldsPlayNoPart
  exact ⟨fun i s t r h hr => exec_readReg h hr, fun i s t r v hr h => exec_writeReg hr h v⟩

end Sys2Proof.Machine

/-! The instructions one by one (spec/40_alu.md to spec/43_jalr_halt.md): the two shapes of the statements, what a write
of a register with a new pc does and what a new pc alone does, and then for each instruction the arithmetic of its
value. -/

namespace Sys2Proof.Machine

open Claims

/-- An instruction that writes a register and sets the pc. -/
theorem writesRegister_of_exec {i : Instr} {s : State} {dr : RegNum} {v pc' : Word}
    (h : exec i s = .next ((s.writeReg dr v).setPc pc')) : WritesRegister i s dr v pc' := by
  refine ⟨_, h, fun hdr => ?same, State.readReg_zero _, fun r hr => ?other, rfl, rfl, rfl, fun _ => rfl, rfl⟩
  case same => rw [State.setPc_readReg, State.readReg_writeReg, if_pos ⟨rfl, hdr⟩]
  case other => rw [State.setPc_readReg, State.readReg_writeReg_ne s hr]

/-- An instruction that sets the pc alone. -/
theorem setsPcOnly_of_exec {i : Instr} {s : State} {pc' : Word} (h : exec i s = .next (s.setPc pc')) :
    SetsPcOnly i s pc' := ⟨_, h, rfl, fun _ => rfl, rfl, rfl, fun _ => rfl, rfl⟩

/-! ADD, ADDI, NAND. -/

/-- A sign-extended immediate is its signed value, cut to 32 bits. -/
theorem sext32_eq (v : Imm20) : sext32 v = BitVec.ofInt 32 v.toInt := rfl

theorem word_add_eq (a b : Word) : a + b = BitVec.ofNat 32 (a.toNat + b.toNat) := by
  rw [BitVec.ofNat_add, BitVec.ofNat_toNat, BitVec.ofNat_toNat, BitVec.setWidth_eq, BitVec.setWidth_eq]

theorem word_add_sext32_eq (a : Word) (v : Imm20) : a + sext32 v = BitVec.ofInt 32 (a.toInt + v.toInt) := by
  rw [BitVec.ofInt_add, BitVec.ofInt_toInt, sext32_eq]

/-- Settles O16: the wrapped sum of two words is the sum of their numbers, cut to 32 bits. -/
theorem addWritesTheSum : Obligations.AddWritesTheSum := by
  unfold Obligations.AddWritesTheSum
  refine ⟨fun w h => decode_add h, fun dr sr1 sr2 s => ?_⟩
  rw [← word_add_eq]
  exact writesRegister_of_exec (exec_add s dr sr1 sr2)

/-- Settles O17: the sum with the immediate is that of the signed numbers, cut to 32 bits. -/
theorem addiWritesTheSumWithTheSignedImmediate : Obligations.AddiWritesTheSumWithTheSignedImmediate := by
  unfold Obligations.AddiWritesTheSumWithTheSignedImmediate
  refine ⟨fun w h => decode_addi h, fun dr sr1 imm s => ?_⟩
  rw [← word_add_sext32_eq]
  exact writesRegister_of_exec (exec_addi s dr sr1 imm)

theorem nand_writes (dr sr1 sr2 : RegNum) (s : State) : WritesRegister (.nand dr sr1 sr2) s dr
    (~~~(s.readReg sr1 &&& s.readReg sr2)) (s.pc + 1#32) := writesRegister_of_exec (exec_nand s dr sr1 sr2)

theorem getLsbD_nand (a b : Word) {k : Nat} (hk : k < 32) :
    (~~~(a &&& b)).getLsbD k = false ↔ a.getLsbD k = true ∧ b.getLsbD k = true := by
  rw [BitVec.getLsbD_not, BitVec.getLsbD_and]
  simp [hk]

/-- Settles O18: the value is the complement of the conjunction. -/
theorem nandClearsExactlyTheCommonBits : Obligations.NandClearsExactlyTheCommonBits := by
  unfold Obligations.NandClearsExactlyTheCommonBits
  exact ⟨fun w h => decode_nand h, fun dr sr1 sr2 s =>
    ⟨_, nand_writes dr sr1 sr2 s, fun k hk => getLsbD_nand _ _ hk⟩⟩

/-- Settles O19: NAND of one word is its complement, twice it is the conjunction; a write to register 0 is void. -/
theorem notNoopAndAndIdioms : Obligations.NotNoopAndAndIdioms := by
  unfold Obligations.NotNoopAndAndIdioms
  refine ⟨fun dr r s => ?complement, ⟨by decide, fun s => setsPcOnly_of_exec ?noop⟩, fun d m a b s hd hm => ?conj⟩
  case complement => simpa only [BitVec.and_self] using nand_writes dr r r s
  case noop => rw [exec_add, State.writeReg_zero]; rfl
  case conj =>
    obtain ⟨t, ht, hread, -⟩ := nand_writes m a b s
    obtain ⟨u, hu, hread', -⟩ := nand_writes d m m t
    refine ⟨t, u, ht, hu, ?_⟩
    rw [hread' hd, hread hm, BitVec.and_self, BitVec.not_not]

/-! SKPE, SKPGT, GOTO. -/

theorem exec_skpe_eq (s : State) (sr1 sr2 : RegNum) : exec (.skpe sr1 sr2) s =
    .next (s.setPc (if s.readReg sr1 = s.readReg sr2 then s.pc + 2#32 else s.pc + 1#32)) := by
  simp only [exec_skpe, State.skip_eq, skpEqual, decide_eq_true_eq]

theorem exec_skpgt_eq (s : State) (sr1 sr2 : RegNum) : exec (.skpgt sr1 sr2) s =
    .next (s.setPc (if (s.readReg sr2).toInt < (s.readReg sr1).toInt then s.pc + 2#32 else s.pc + 1#32)) := by
  simp only [exec_skpgt, State.skip_eq, skpGreater, decide_eq_true_eq]

theorem memIndex_succ_ne (a : Word) : memIndex (a + 2#32) ≠ memIndex (a + 1#32) := by
  rw [memIndex_eq_mod, memIndex_eq_mod, BitVec.toNat_add, BitVec.toNat_add]
  simp only [BitVec.toNat_ofNat]
  omega

/-- Settles O20: the skip reads on at `pc + 2`, whose memory index is another than that of `pc + 1`. -/
theorem skpeSkipsOnEqualRegisters : Obligations.SkpeSkipsOnEqualRegisters := by
  unfold Obligations.SkpeSkipsOnEqualRegisters
  refine ⟨fun w h hm => decode_skpe h hm, fun sr1 sr2 s =>
    ⟨setsPcOnly_of_exec (exec_skpe_eq s sr1 sr2), fun w t ht heq => ?_⟩⟩
  rw [exec_skpe_eq, if_pos heq] at ht
  cases ht
  exact fetch_withImem (Memory.read_write_ne _ (memIndex_succ_ne s.pc) w)

/-- Settles O21: SKPGT compares the signed numbers. -/
theorem skpgtSkipsOnSignedGreater : Obligations.SkpgtSkipsOnSignedGreater := by
  unfold Obligations.SkpgtSkipsOnSignedGreater
  exact ⟨fun w h hm => decode_skpgt h hm, fun sr1 sr2 s => setsPcOnly_of_exec (exec_skpgt_eq s sr1 sr2)⟩

/-- `signed` as R93 writes it out. -/
theorem toInt_eq_signed (a : Word) :
    a.toInt = if a.toNat < 2 ^ 31 then (a.toNat : Int) else (a.toNat : Int) - 2 ^ 32 := by
  rw [BitVec.toInt_eq_toNat_cond]
  have : 2 * a.toNat < 2 ^ 32 ↔ a.toNat < 2 ^ 31 := by omega
  simp only [this]
  rfl

theorem getLsbD_31_eq (a : Word) : a.getLsbD 31 = decide (¬ a.toNat < 2 ^ 31) := by
  simp only [not_lt]
  exact BitVec.msb_eq_decide a

/-- The signed comparison on the bit patterns (R93). -/
theorem toInt_lt_iff (a b : Word) : b.toInt < a.toInt ↔
    if a.getLsbD 31 = b.getLsbD 31 then b.toNat < a.toNat else a.getLsbD 31 = false := by
  have ha := a.isLt
  have hb := b.isLt
  rw [toInt_eq_signed, toInt_eq_signed, getLsbD_31_eq, getLsbD_31_eq]
  simp only [decide_eq_decide, not_iff_not, decide_eq_false_iff_not, not_not]
  by_cases hsame : a.toNat < 2 ^ 31 ↔ b.toNat < 2 ^ 31
  · rw [if_pos hsame]
    split <;> split <;> omega
  · rw [if_neg hsame]
    split <;> split <;> omega

theorem skip_taken_iff (pc : Word) (c : Prop) [Decidable c] :
    (if c then pc + 2#32 else pc + 1#32) = pc + 2#32 ↔ c := by
  by_cases h : c <;> simp [h]

/-- Settles O22: the pc says whether the comparison succeeds, which is one of signed numbers. -/
theorem signedComparisonOnBitPatterns : Obligations.SignedComparisonOnBitPatterns := by
  unfold Obligations.SignedComparisonOnBitPatterns
  rintro sr1 sr2 s a b rfl rfl
  refine ⟨_, exec_skpgt_eq s sr1 sr2, ?_, ?_⟩ <;> rw [State.setPc_pc, skip_taken_iff]
  · rw [toInt_eq_signed, toInt_eq_signed]
  · exact toInt_lt_iff _ _

/-- The target of GOTO and the value of LEA, on the integers (R92, R100). -/
theorem pcRelative_eq (s : State) (off : Imm20) :
    s.pcRelative off = BitVec.ofInt 32 ((s.pc.toNat : Int) + 1 + off.toInt) := by
  rw [BitVec.ofInt_add, BitVec.ofInt_add, BitVec.ofInt_natCast, BitVec.ofNat_toNat, BitVec.setWidth_eq]
  rfl

theorem goto_sets (off : Imm20) (s : State) : SetsPcOnly (.goto off) s (s.pcRelative off) :=
  setsPcOnly_of_exec (exec_goto s off)

/-- Settles O23: the pc-relative sum on the integers. -/
theorem gotoBranchesRelativeToTheIncrementedPc : Obligations.GotoBranchesRelativeToTheIncrementedPc := by
  unfold Obligations.GotoBranchesRelativeToTheIncrementedPc
  exact ⟨fun w h hm => decode_goto h hm, fun off s => pcRelative_eq s off ▸ goto_sets off s⟩

/-! LEA, LW, SW. -/

theorem lea_writes (dr : RegNum) (off : Imm20) (s : State) :
    WritesRegister (.lea dr off) s dr (s.pcRelative off) (s.pc + 1#32) := writesRegister_of_exec (exec_lea s dr off)

/-- Settles O24: LEA writes the pc-relative sum that GOTO goes to. -/
theorem leaWritesTheGotoTarget : Obligations.LeaWritesTheGotoTarget := by
  unfold Obligations.LeaWritesTheGotoTarget
  refine ⟨fun w h => decode_lea h, fun dr off s => ?_⟩
  rw [← pcRelative_eq]
  exact ⟨lea_writes dr off s, _, exec_goto s off, rfl⟩

/-- Settles O25: LW reads at the effective address. -/
theorem lwLoadsTheAddressedWord : Obligations.LwLoadsTheAddressedWord := by
  unfold Obligations.LwLoadsTheAddressedWord
  exact ⟨fun w h => decode_lw h, fun dr base off s => writesRegister_of_exec (exec_lw s dr base off)⟩

/-- Settles O26: SW writes at the effective address, in a canonical memory. -/
theorem swStoresTheRegisterAtTheAddressedWord : Obligations.SwStoresTheRegisterAtTheAddressedWord := by
  unfold Obligations.SwStoresTheRegisterAtTheAddressedWord
  refine ⟨fun w h => decode_sw h, fun sr base off s hwf => ⟨_, exec_sw s sr base off, ?stored, fun a ha => ?other,
    fun _ => rfl, rfl, rfl, rfl, rfl⟩⟩
  case stored => exact Memory.read_write_same hwf _ _
  case other => exact Memory.read_write_ne _ ha _

theorem toInt_sext32 (v : Imm20) : (sext32 v).toInt = v.toInt := BitVec.toInt_signExtend_of_le (by decide)

/-- The number of a word plus a sign-extended field, modulo 2^24. -/
theorem add_sext32_mod (a : Word) (v : Imm20) :
    (((a + sext32 v).toNat % 2 ^ 24 : Nat) : Int) = (a.toNat + v.toInt) % 2 ^ 24 := by
  have hv : v.toInt = if (sext32 v).toNat < 2 ^ 31 then ((sext32 v).toNat : Int) else (sext32 v).toNat - 2 ^ 32 := by
    rw [← toInt_sext32, toInt_eq_signed]
  rw [BitVec.toNat_add, hv]
  split <;> omega

/-- Settles O27: 2^24 divides 2^32, so the wrapped sum and the high bits of the base are cut off together. -/
theorem effectiveAddressIsTheSignedSumModulo2To24 : Obligations.EffectiveAddressIsTheSignedSumModulo2To24 := by
  unfold Obligations.EffectiveAddressIsTheSignedSumModulo2To24
  intro s base off
  have hsum : (memIndex (s.effectiveAddress base off) : Int) = ((s.readReg base).toNat + off.toInt) % 2 ^ 24 := by
    rw [memIndex_eq_mod, State.effectiveAddress, add_sext32_mod]
  refine ⟨hsum, ?_⟩
  have hlow : ((s.readReg base).extractLsb' 0 24).toNat = (s.readReg base).toNat % 2 ^ 24 := memIndex_eq_mod _
  rw [hsum, hlow]
  omega

/-- Settles O30: the bits of a sign extension, and the range of a signed 20-bit number. -/
theorem immediatesAreSignExtended : Obligations.ImmediatesAreSignExtended := by
  unfold Obligations.ImmediatesAreSignExtended
  intro v
  have hlo := v.le_toInt (w := 20)
  have hhi := v.toInt_lt (w := 20)
  refine ⟨fun k hk => ?low, fun k hk hk' => ?high, toInt_sext32 v, ?_, ?_⟩
  case low => rw [sext32, BitVec.getLsbD_signExtend, if_pos hk, decide_eq_true (by omega), Bool.true_and]
  case high =>
    rw [sext32, BitVec.getLsbD_signExtend, if_neg (by omega), decide_eq_true hk', Bool.true_and,
      BitVec.msb_eq_getLsbD_last]
  all_goals rw [toInt_sext32]; omega

/-! JALR, HALT. -/

theorem exec_jalr_eq (tgt link : RegNum) (s : State) : exec (.jalr tgt link) s =
    .next ((s.writeReg link (s.pc + 1#32)).setPc (if tgt = link ∧ link ≠ 0 then s.pc + 1#32 else s.readReg tgt)) := by
  rw [exec_jalr]
  exact congrArg (fun p => Host.Outcome.next ((s.writeReg link (s.pc + 1#32)).setPc p)) (s.jumpAndLink_pc tgt link)

theorem jalr_writes (tgt link : RegNum) (s : State) : WritesRegister (.jalr tgt link) s link (s.pc + 1#32)
    (if tgt = link ∧ link ≠ 0 then s.pc + 1#32 else s.readReg tgt) := writesRegister_of_exec (exec_jalr_eq tgt link s)

/-- Settles O31: with two registers, or register 0, the target is read as it was. -/
theorem jalrLinksAndJumps : Obligations.JalrLinksAndJumps := by
  unfold Obligations.JalrLinksAndJumps
  refine ⟨fun w h => decode_jalr h, fun tgt link s h => ?_⟩
  have hna : ¬(tgt = link ∧ link ≠ 0) := by
    rintro ⟨rfl, h0⟩
    exact h.elim (fun hne => hne rfl) h0
  have hw := jalr_writes tgt link s
  rwa [if_neg hna] at hw

/-- Settles O32: with one register the value written is the pc; under `refuse` the decoder compares the fields. -/
theorem jalrWithOneRegisterFollowsTheParameter : Obligations.JalrWithOneRegisterFollowsTheParameter := by
  unfold Obligations.JalrWithOneRegisterFollowsTheParameter
  refine ⟨fun r s hr => ?_, decode_jalrAlias_refuse, fun _ => rfl⟩
  have hw := jalr_writes r r s
  rwa [if_pos ⟨rfl, hr⟩] at hw

/-- Settles O33: the link is `pc + 1`, and the return writes register 0, that is nothing. -/
theorem callAndReturnComesBack : Obligations.CallAndReturnComesBack := by
  unfold Obligations.CallAndReturnComesBack
  intro tgt link s t u hlink hne ht hu
  obtain ⟨t', ht', hread, -, -, hpc, -⟩ := jalr_writes tgt link s
  obtain rfl : t' = t := by simpa using ht'.symm.trans ht
  rw [if_neg (fun h => hne h.1)] at hpc
  refine ⟨hpc, setsPcOnly_of_exec ?_⟩
  rw [exec_jalr_eq, State.writeReg_zero, if_neg (fun h => h.2 rfl), hu, hread hlink]

/-- Settles O34: HALT sets one field. -/
theorem haltSetsHaltedAndNothingElse : Obligations.HaltSetsHaltedAndNothingElse := by
  unfold Obligations.HaltSetsHaltedAndNothingElse
  exact ⟨fun w h => decode_halt h, fun s => ⟨_, exec_halt s, rfl, fun _ => rfl, rfl, fun _ => rfl, rfl⟩⟩

/-! All of them. -/

/-- Settles O13: the pc of each instruction's outcome. -/
theorem nextPcOfEveryInstruction : Obligations.NextPcOfEveryInstruction := by
  unfold Obligations.NextPcOfEveryInstruction
  intro i s
  cases i with
  | skpe sr1 sr2 => exact ⟨_, exec_skpe_eq s sr1 sr2, rfl⟩
  | skpgt sr1 sr2 => exact ⟨_, exec_skpgt_eq s sr1 sr2, rfl⟩
  | jalr tgt link =>
    refine ⟨_, exec_jalr_eq tgt link s, ?_⟩
    have hsame : (tgt = link ∧ link ≠ 0) ↔ (tgt = link ∧ tgt ≠ 0) := and_congr_right fun h => by rw [h]
    simp only [State.setPc_pc, hsame]
  | halt => exact ⟨_, exec_halt s, rfl⟩
  | _ => exact ⟨_, rfl, rfl⟩

/-- An instruction whose destination is register 0 leaves the register file alone. -/
theorem exec_dest_zero_regs {i : Instr} {s t : State} (hd : i.dest = some 0) (h : exec i s = .next t) :
    t.regs = s.regs := by
  obtain ⟨⟨hn, -⟩ | ⟨r, v, hr, hregs⟩, -⟩ := exec_changes h
  · rw [hd] at hn; cases hn
  · obtain rfl : 0 = r := by simpa using hd.symm.trans hr
    rw [hregs, RegFile.write_zero]

/-- Settles O14: register 0 is guarded in every read; an instruction that writes it is no SW and no HALT, and JALR's
target is then the old value. -/
theorem zeroRegisterReadsZeroAndDiscardsWrites : Obligations.ZeroRegisterReadsZeroAndDiscardsWrites := by
  unfold Obligations.ZeroRegisterReadsZeroAndDiscardsWrites
  refine ⟨fun s => ⟨s.readReg_zero, s.operand_zero, s.operandStalls_zero⟩, fun i s hd => ?_⟩
  obtain ⟨t, ht⟩ := exec_total i s
  refine ⟨t, ht, exec_dest_zero_regs hd ht, ?_⟩
  cases i with
  | jalr tgt link =>
    obtain rfl : link = 0 := by simpa [Instr.dest] using hd
    rw [exec_jalr_eq, if_neg (fun h => h.2 rfl)] at ht
    cases ht
    exact ⟨rfl, rfl, rfl⟩
  | skpe | skpgt | goto | sw | halt => cases hd
  | _ => cases ht; exact ⟨rfl, rfl, rfl⟩

end Sys2Proof.Machine

/-! The assembler's immediates and labels (spec/30_encoding.md R70 to R74; D20). -/

namespace Sys2Proof.Asm

open Machine Claims

theorem immediate_in_range {z : Int} (h : -524288 ≤ z ∧ z ≤ 524287) :
    ∃ v : Imm20, immediate z = some v ∧ v.toInt = z := by
  refine ⟨BitVec.ofInt 20 z, by simp [immediate, immediateOk, h], ?_⟩
  rw [BitVec.toInt_ofInt, Int.bmod_eq_of_le] <;> omega

theorem immediate_out_of_range {z : Int} (h : ¬(-524288 ≤ z ∧ z ≤ 524287)) : immediate z = none := by
  simp only [immediate, immediateOk, decide_eq_true_eq, if_neg h]

/-- Settles O60: by whether the integer is in range. -/
theorem immediatesAreNeverTruncated : Obligations.ImmediatesAreNeverTruncated := by
  unfold Obligations.ImmediatesAreNeverTruncated
  intro z
  by_cases h : -524288 ≤ z ∧ z ≤ 524287
  · obtain ⟨v, hv, hz⟩ := immediate_in_range h
    rw [hv]
    exact hz
  · rw [immediate_out_of_range h]
    show z < -524288 ∨ 524287 < z
    omega

/-- The pc-relative address of a label's field is the label. -/
theorem pcRelative_label {s : State} {label : Word} {v : Imm20}
    (hv : v.toInt = (label.toNat : Int) - (s.pc.toNat + 1)) : s.pcRelative v = label := by
  rw [pcRelative_eq, hv, show (s.pc.toNat : Int) + 1 + (label.toNat - (s.pc.toNat + 1)) = label.toNat by ring,
    BitVec.ofInt_natCast, BitVec.ofNat_toNat, BitVec.setWidth_eq]

theorem register_of_lt {n : Nat} (h : n < 16) : register n = some (Fin.ofNat 16 n) := by
  rw [register, dif_pos h]
  exact congrArg some (Fin.ext (Nat.mod_eq_of_lt h).symm)

/-- Settles O59: within reach the field is the distance, which the pc-relative sum adds back; out of reach there is no
field. -/
theorem assembledLabelsReachTheirAddress : Obligations.AssembledLabelsReachTheirAddress := by
  unfold Obligations.AssembledLabelsReachTheirAddress
  intro a label dr hdr
  refine ⟨fun h => ?_, fun h => ?_⟩
  · obtain ⟨v, hv, hz⟩ := immediate_in_range h
    have hoff : labelOffset a label = some v := hv
    refine ⟨.goto v, .lea (Fin.ofNat 16 dr) v, by simp [assemble, hoff],
      by simp [assemble, hoff, register_of_lt hdr], ?_⟩
    rintro s rfl
    have htarget := pcRelative_label hz
    exact ⟨htarget ▸ goto_sets v s, htarget ▸ lea_writes _ v s⟩
  · have hoff : labelOffset a label = none := immediate_out_of_range h
    exact ⟨by simp [assemble, hoff], by simp [assemble, hoff, register_of_lt hdr]⟩

end Sys2Proof.Asm
